-- ==== Sys2Proof/Config.lean ====
section
/-! DEFINITION. The block's fixed sizes and constant tables (00_scope.md R7 to R9, 10_state.md R24). -/

namespace Sys2Proof.Config

/-- `N_DATA` (R7). -/
def nData : Nat := 16

/-- `N_PARITY` (R7). -/
def nParity : Nat := 5

/-- `N_CODE` (R7). -/
def nCode : Nat := 21

/-- `PARITY_POS[0..4]`, fixed (R8). -/
def parityPos : List Nat := [0, 1, 3, 7, 15]

/-- The default of the parameter `DATA_POS` (R9, D2): descending. Its order is the spec's own choice (log 1). -/
def defaultDataPos : List Nat :=
  [20, 19, 18, 17, 16, 14, 13, 12, 11, 10, 9, 8, 6, 5, 4, 2]

end Sys2Proof.Config
end

