-- ==== Sys2Proof/Word.lean ====
section
/-! DEFINITION. The word types: one for each format of 30_encoding.md (R60 to R63), and a byte of bench text. -/

namespace Sys2Proof

/-- One byte of the bench program's text (R68). -/
abbrev Byte := BitVec 8

/-- Format `IN16` (R60): bit `k` is `d[k]`. -/
abbrev In16 := BitVec 16

/-- Format `VEC21` (R62): the bit vector `v[0..20]`, element `i` at bit `i`. -/
abbrev Vec21 := BitVec 21

/-- Format `CODE21` (R61): bit `i` is codeword position `i`. -/
abbrev Code21 := BitVec 21

/-- Format `SYN5` (R63): bit `j` is check sum `j`. -/
abbrev Syn5 := BitVec 5

end Sys2Proof
end

