-- ==== Sys2Proof/Syntax.lean ====
section
/-! DEFINITION. The operations of spec/opcode_table.json with the operands the bench language gives them
(30_encoding.md R68), a bench line before any check, and the pair (operation, input word) that encodes a step. -/

namespace Sys2Proof

/-- The operand of FILL and of GATHER: `<imm21 | V>` (R68). A literal is an integer of any size; an
operation uses its low 21 bits (R65), and the bench grammar admits only those below 2^21 (R68). -/
inductive VecOperand where
  | imm (n : Nat)
  | regV
  deriving DecidableEq, Repr

/-- The operand of CHECK: `<imm21 | V | C>` (R68). -/
inductive CheckOperand where
  | imm (n : Nat)
  | regV
  | regC
  deriving DecidableEq, Repr

/-- One constructor for each row of spec/opcode_table.json. ENCODE and SCATTER take `<imm16>`, an integer of
which the low 16 bits are used (R45, R65). -/
inductive Instr where
  | encode (d : Nat)
  | scatter (d : Nat)
  | parityFill (x : VecOperand)
  | check (x : CheckOperand)
  | gather (x : VecOperand)
  deriving DecidableEq, Repr

/-- Which sub-block function a line drives: the first half of R68's pair (operation, input word). No input
bit selects it (R66). -/
inductive Op where
  | encode
  | scatter
  | parityFill
  | check
  | gather
  deriving DecidableEq, Repr

/-- The operation an instruction applies. -/
def Instr.op : Instr → Op
  | .encode _ => .encode
  | .scatter _ => .scatter
  | .parityFill _ => .parityFill
  | .check _ => .check
  | .gather _ => .gather

/-- The width of the input port an operation drives (R63). -/
def Op.inWidth : Op → Nat
  | .encode => 16
  | .scatter => 16
  | .parityFill => 21
  | .check => 21
  | .gather => 21

/-- The operand of a line, before any check: a literal, a bench register by name, or nothing at all (an undriven
input, R171; log 18). -/
inductive LineInput where
  | word (n : Nat)
  | regV
  | regC
  | regS
  | undriven
  deriving DecidableEq, Repr

/-- One line of a bench program, unchecked: a mnemonic and an operand (R68). -/
structure Line where
  op : Op
  input : LineInput
  deriving DecidableEq, Repr

/-- R68's pair (operation, input word): the encoding of one step of a program. The input word is the value on the
driven sub-block's input port. -/
structure Pair where
  op : Op
  word : Nat
  deriving DecidableEq, Repr

end Sys2Proof
end

