-- ==== Sys2Proof/WellFormed.lean ====
section
/-! DEFINITION. The checks: the literal ranges of the bench grammar (30_encoding.md R68), and the partition
check on the parameter `DATA_POS` (10_state.md R24). -/

namespace Sys2Proof

/-- A literal of `w` bits is in range: its value is below `2^w` (R68). -/
def literalInRange (w n : Nat) : Bool := decide (n < 2 ^ w)

/-- The grammar admits the instruction: its literal, where it has one, is in range (R68). Every operand FORM
an `Instr` can hold is one the grammar has. -/
def Instr.wf : Instr → Bool
  | .encode n => literalInRange 16 n
  | .scatter n => literalInRange 16 n
  | .parityFill (.imm n) => literalInRange 21 n
  | .parityFill .regV => true
  | .check (.imm n) => literalInRange 21 n
  | .check .regV => true
  | .check .regC => true
  | .gather (.imm n) => literalInRange 21 n
  | .gather .regV => true

/-- The partition check of R24: 16 entries which, together with the 5 of `PARITY_POS`, are each value of
0..20 exactly once. -/
def dataPosLegal (t : List Nat) : Bool :=
  t.length == Config.nData &&
    (List.range Config.nCode).all fun p => (t ++ Config.parityPos).count p == 1

/-- A `DATA_POS` argument the model accepts (R24): the entries with the check's result, so that an ill-formed
table is never part of a machine (R170: refused at construction). -/
structure DataPos where
  entries : List Nat
  legal : dataPosLegal entries = true
  deriving DecidableEq, Repr

/-- `DATA_POS[i]`, for `i` in [0, 15] (R25). -/
def DataPos.pos (t : DataPos) (i : Nat) : Nat := t.entries.getD i 0

/-- The spec's default table (R9, R181, D2). -/
def DataPos.default : DataPos := ⟨Config.defaultDataPos, by decide⟩

end Sys2Proof
end

