-- ==== Sys2Proof/Decode.lean ====
section
/-! DEFINITION. Decoding: from a bench line to an instruction (30_encoding.md R68), from a bare word of
spec/opcode_table.json to an instruction (R65, R66), and from the bytes of a bench text to lines (R68).
Each is total and rejects by name. The encoders follow. -/

namespace Sys2Proof

/-- Why a line or a text is no bench instruction. All are refusals of the bench or of the model, never an
event of the block (60_exceptions.md section 5); each stops the run, so each is safe. -/
inductive Reject where
  /-- A literal out of range for its operand: refused by the grammar, not truncated (R68, R172). Raised by
  `decodeLine`. Safe. -/
  | literalOutOfRange
  /-- A bench register where the operation's operand has no such form (R68). Raised by `decodeLine`. Safe. -/
  | operandNotInGrammar
  /-- The input is not a defined value (R171, D17). Raised by `decodeLine`. Safe. -/
  | undrivenInput
  /-- A line of text that is not a mnemonic and one operand (R68). Raised by `parseTokens`. Safe. -/
  | malformedLine
  /-- A mnemonic that is none of ENCODE, SCATTER, FILL, CHECK, GATHER (R68). Raised by `parseTokens`. Safe. -/
  | unknownMnemonic
  /-- An operand that is neither a literal `0x…` nor `V`, `C` or `S` (R68). Raised by `parseTokens`. Safe. -/
  | malformedOperand
  deriving DecidableEq, Repr

/-! ### From a line to an instruction -/

/-- A literal for a port of `w` bits: in range, or refused by the grammar (R68, R172). -/
def decodeLiteral {α : Type} (w n : Nat) (x : α) : Except Reject α :=
  if literalInRange w n then .ok x else .error .literalOutOfRange

/-- The operand `<imm16>` (R68). -/
def decodeImm16 : LineInput → Except Reject Nat
  | .word n => decodeLiteral 16 n n
  | .regV => .error .operandNotInGrammar
  | .regC => .error .operandNotInGrammar
  | .regS => .error .operandNotInGrammar
  | .undriven => .error .undrivenInput

/-- The operand `<imm21 | V>` (R68). -/
def decodeVec : LineInput → Except Reject VecOperand
  | .word n => decodeLiteral 21 n (.imm n)
  | .regV => .ok .regV
  | .regC => .error .operandNotInGrammar
  | .regS => .error .operandNotInGrammar
  | .undriven => .error .undrivenInput

/-- The operand `<imm21 | V | C>` (R68). -/
def decodeCheck : LineInput → Except Reject CheckOperand
  | .word n => decodeLiteral 21 n (.imm n)
  | .regV => .ok .regV
  | .regC => .ok .regC
  | .regS => .error .operandNotInGrammar
  | .undriven => .error .undrivenInput

/-- The instruction a line stands for: the operand forms of R68's grammar and no others. -/
def decodeLine (l : Line) : Except Reject Instr :=
  match l.op with
  | .encode => (decodeImm16 l.input).map .encode
  | .scatter => (decodeImm16 l.input).map .scatter
  | .parityFill => (decodeVec l.input).map .parityFill
  | .check => (decodeCheck l.input).map .check
  | .gather => (decodeVec l.input).map .gather

/-! ### From a bare table word to an instruction -/

/-- The line a bare word of `nbits` bits stands for. No bit of a word selects the operation (R66), so the
format alone decides: a 16-bit word is applied to the top block, whose only operation is ENCODE, and a
21-bit word (24 in whole bytes) to the first VEC21 row, PARITY_FILL (log 7). Only the low 16 or 21 bits are
used (R65). -/
def Line.ofTableWord (nbits w : Nat) : Option Line :=
  if nbits = 16 then some ⟨.encode, .word (w % 2 ^ 16)⟩
  else if nbits = 21 ∨ nbits = 24 then some ⟨.parityFill, .word (w % 2 ^ 21)⟩
  else none

/-- The instruction the decoder reads from a bare table word. -/
def decodeTableWord (nbits w : Nat) : Option Instr :=
  match Line.ofTableWord nbits w with
  | none => none
  | some l => (decodeLine l).toOption

/-! ### From text to lines (R68; the lexical form is log 9) -/

/-- The ASCII bytes of a list of characters. -/
def ascii (cs : List Char) : List Byte := cs.map fun c => BitVec.ofNat 8 c.toNat

/-- Space, tab and carriage return separate words. -/
def isBlank (b : Byte) : Bool := b == 0x20#8 || b == 0x09#8 || b == 0x0D#8

/-- `;` starts a comment (R68). -/
def dropComment (l : List Byte) : List Byte := l.takeWhile fun b => b != 0x3B#8

/-- The words of a line. -/
def tokens : List Byte → List (List Byte)
  | [] => []
  | b :: rest =>
    if isBlank b then tokens rest
    else
      match rest with
      | [] => [[b]]
      | b' :: _ =>
        if isBlank b' then [b] :: tokens rest
        else
          match tokens rest with
          | [] => [[b]]
          | t :: ts => (b :: t) :: ts

/-- The value of a hexadecimal digit, of either letter case. -/
def hexDigit (b : Byte) : Option Nat :=
  let n := b.toNat
  if 0x30 ≤ n ∧ n ≤ 0x39 then some (n - 0x30)
  else if 0x41 ≤ n ∧ n ≤ 0x46 then some (n - 0x41 + 10)
  else if 0x61 ≤ n ∧ n ≤ 0x66 then some (n - 0x61 + 10)
  else none

/-- Digits after those already read as `acc`, the most significant first. -/
def hexValue (acc : Nat) : List Byte → Option Nat
  | [] => some acc
  | b :: rest =>
    match hexDigit b with
    | none => none
    | some k => hexValue (16 * acc + k) rest

/-- `0x` and at least one digit, or a bench register's name (R68). -/
def parseInput (t : List Byte) : Except Reject LineInput :=
  if t = ascii ['V'] then .ok .regV
  else if t = ascii ['C'] then .ok .regC
  else if t = ascii ['S'] then .ok .regS
  else
    match t with
    | z :: x :: d :: ds =>
      if z = 0x30#8 ∧ x = 0x78#8 then
        match hexValue 0 (d :: ds) with
        | some n => .ok (.word n)
        | none => .error .malformedOperand
      else .error .malformedOperand
    | _ => .error .malformedOperand

/-- The name of an operation in the bench language (R68). -/
def Op.mnemonic : Op → List Byte
  | .encode => ascii ['E', 'N', 'C', 'O', 'D', 'E']
  | .scatter => ascii ['S', 'C', 'A', 'T', 'T', 'E', 'R']
  | .parityFill => ascii ['F', 'I', 'L', 'L']
  | .check => ascii ['C', 'H', 'E', 'C', 'K']
  | .gather => ascii ['G', 'A', 'T', 'H', 'E', 'R']

/-- The operation of a name (R68). -/
def parseOp (t : List Byte) : Except Reject Op :=
  if t = Op.mnemonic .encode then .ok .encode
  else if t = Op.mnemonic .scatter then .ok .scatter
  else if t = Op.mnemonic .parityFill then .ok .parityFill
  else if t = Op.mnemonic .check then .ok .check
  else if t = Op.mnemonic .gather then .ok .gather
  else .error .unknownMnemonic

/-- A line's words as a line: a mnemonic and one operand; no words, no line (log 9). -/
def parseTokens : List (List Byte) → Except Reject (Option Line)
  | [] => .ok none
  | [m, x] =>
    match parseOp m with
    | .error r => .error r
    | .ok op =>
      match parseInput x with
      | .error r => .error r
      | .ok input => .ok (some ⟨op, input⟩)
  | _ => .error .malformedLine

/-- The bytes of one line of text (no line feed in them) as a line, or nothing where it is blank. -/
def parseLine (text : List Byte) : Except Reject (Option Line) :=
  parseTokens (tokens (dropComment text))

/-- The bytes of one line of text as an instruction of the grammar (R68). -/
def decodeText (text : List Byte) : Except Reject Instr :=
  match parseLine text with
  | .error r => .error r
  | .ok none => .error .malformedLine
  | .ok (some l) => decodeLine l

/-- The lines of a text, split at line feeds. -/
def splitLines : List Byte → List (List Byte)
  | [] => [[]]
  | b :: rest =>
    if b = 0x0A#8 then [] :: splitLines rest
    else
      match splitLines rest with
      | [] => [[b]]
      | l :: ls => (b :: l) :: ls

/-- The lines' texts as a program. A line the grammar does not admit refuses the whole program by its
reason (R68, R172; log 10). -/
def parseLines : List (List Byte) → Except Reject (List Line)
  | [] => .ok []
  | t :: ts =>
    match parseLine t with
    | .error r => .error r
    | .ok none => parseLines ts
    | .ok (some l) =>
      match decodeLine l with
      | .error r => .error r
      | .ok _ =>
        match parseLines ts with
        | .error r => .error r
        | .ok ls => .ok (l :: ls)

/-- A bench program from the bytes of its text (R68). -/
def parseProgram (text : List Byte) : Except Reject (List Line) := parseLines (splitLines text)

/-! ### The encoders -/

/-- The line that drives a pair's word as a literal: what a pair decodes through (R68). -/
def Pair.line (p : Pair) : Line := ⟨p.op, .word p.word⟩

/-- An operand as a line's input. -/
def VecOperand.input : VecOperand → LineInput
  | .imm n => .word n
  | .regV => .regV

/-- An operand as a line's input. -/
def CheckOperand.input : CheckOperand → LineInput
  | .imm n => .word n
  | .regV => .regV
  | .regC => .regC

/-- An instruction's operand as a line's input. -/
def Instr.input : Instr → LineInput
  | .encode n => .word n
  | .scatter n => .word n
  | .parityFill x => x.input
  | .check x => x.input
  | .gather x => x.input

/-- The line of an instruction (R68): its operation and its operand. The pair (operation, input word) of a step
depends on the bench registers, and is `Machine.encodePair`. -/
def encodeLine (i : Instr) : Line := ⟨i.op, i.input⟩

/-- The digit of a value below 16, in capitals as the spec writes them. -/
def hexChar (k : Nat) : Byte := BitVec.ofNat 8 (if k < 10 then 0x30 + k else 0x41 + (k - 10))

/-- The low `4 * k` bits of `n` as `k` digits, the most significant first. -/
def hexDigits : Nat → Nat → List Byte
  | 0, _ => []
  | k + 1, n => hexDigits k (n / 16) ++ [hexChar (n % 16)]

/-- An input as the text of an operand: four digits for 16 bits, six for 21, as the spec writes them. -/
def LineInput.text (w : Nat) : LineInput → List Byte
  | .word n => ascii ['0', 'x'] ++ hexDigits ((w + 3) / 4) n
  | .regV => ascii ['V']
  | .regC => ascii ['C']
  | .regS => ascii ['S']
  | .undriven => []

/-- An instruction as a line of the bench language (R68). -/
def textOf (i : Instr) : List Byte :=
  i.op.mnemonic ++ ascii [' '] ++ i.input.text i.op.inWidth

end Sys2Proof
end

