-- ==== Sys2Proof/Machine/State.lean ====
section
/-! DEFINITION. The machine's state: the parameter `DATA_POS`, the input ports of the block and its sub-blocks,
the bench registers and the bench's program (10_state.md, 30_encoding.md R63 and R68), the reasons a step can
stop, and the state after reset (70_reset_and_hazards.md R181). -/

namespace Sys2Proof.Machine

/-- The faults. The block itself has none (60_exceptions.md R160). -/
inductive Fault where
  /-- A bench line reads `V` or `C` before anything wrote it (R68, R172). Raised by FILL, CHECK and GATHER
  through `withVec`. It is the spec's own fault of the test bench, and it stops the program: safe. -/
  | unwrittenBenchRegister
  deriving DecidableEq, Repr

/-- The refusals. None is an event of the block (60_exceptions.md section 5). -/
inductive Refusal where
  /-- An instruction that has no meaning yet, raised by `exec`. No arm of `exec` raises it. Safe. -/
  | notModelled (mnemonic : String)
  /-- A step where the program has no further line (D19: a program ends after its last line; log 8). Raised
  by `step`. Safe. -/
  | programEnded
  /-- The line is not in the bench grammar, or its input is undriven (R68, R171, R172). Raised by `step` and
  `State.load`. Safe. -/
  | rejected (why : Reject)
  /-- A `DATA_POS` argument that breaks the partition invariant (R24, R170). Raised by `State.build`, at
  construction. Safe. -/
  | illFormedDataPos
  deriving DecidableEq, Repr

/-- The state. The block keeps nothing between operations (R10, R142): beside its constant tables there are
the values its input ports are driven with, and the test bench. An input port is `none` while nothing drives
it (R171); a bench register is `none` until something writes it (R68). -/
structure State where
  /-- `DATA_POS` (R9, R24): a parameter, read-only. -/
  dataPos : DataPos
  /-- `data_in[15:0]` of the top block (R26). -/
  dataIn : Option In16
  /-- The input of the scatter half (R63). -/
  scatterIn : Option In16
  /-- The input of parity_check_unit's fill function (R63). -/
  fillIn : Option Vec21
  /-- The input of parity_check_unit's check function (R63). -/
  checkIn : Option Vec21
  /-- The input of the gather half (R63). -/
  gatherIn : Option Vec21
  /-- Bench register `V`, the last VEC21 result (R68). -/
  regV : Option Vec21
  /-- Bench register `C`, the last CODE21 result (R68). -/
  regC : Option Code21
  /-- Bench register `S`, the last SYN5 result (R68). -/
  regS : Option Syn5
  /-- The bench program (R68). -/
  program : List Line
  /-- The index of the bench's next line (R21, D19). -/
  line : Nat
  deriving DecidableEq, Repr

/-- The machine before any program is loaded: the default table, no port driven, every bench register
unwritten (R181; log 1, log 2, log 3, log 11). -/
def State.reset : State :=
  { dataPos := DataPos.default
    dataIn := none
    scatterIn := none
    fillIn := none
    checkIn := none
    gatherIn := none
    regV := none
    regC := none
    regS := none
    program := []
    line := 0 }

end Sys2Proof.Machine
end

