-- ==== Sys2Proof/Machine/Operands.lean ====
section
/-! DEFINITION. Operands: an integer on a port of fixed width, and a bench operand as the value that drives the
port (30_encoding.md R65, R68). -/

namespace Sys2Proof.Machine

/-- An integer on a 16-bit port: its low 16 bits (R45, R65). -/
def in16 (n : Nat) : In16 := BitVec.ofNat 16 n

/-- An integer on a 21-bit port: its low 21 bits (R65, D4; log 13). -/
def vec21 (n : Nat) : Vec21 := BitVec.ofNat 21 n

/-- The value of FILL's or GATHER's operand; `none` where it names an unwritten bench register (R68). -/
def vecValue (x : VecOperand) (s : State) : Option Vec21 :=
  match x with
  | .imm n => some (vec21 n)
  | .regV => s.regV

/-- The value of CHECK's operand. `C` is a CODE21 value read as a vector, bit `i` as element `i` (R110, R120). -/
def checkValue (x : CheckOperand) (s : State) : Option Vec21 :=
  match x with
  | .imm n => some (vec21 n)
  | .regV => s.regV
  | .regC => s.regC

end Sys2Proof.Machine
end

