-- ==== Sys2Proof/Machine/Ops.lean ====
section
/-! DEFINITION. The named operations: writing one element of a bit vector, driving an input port, writing a bench
register, the bench's fetch and advance, and constructing and loading the machine. -/

namespace Sys2Proof.Machine

/-- `v[i] <- b` (R13). -/
def writeBit (v : Vec21) (i : Nat) (b : Bool) : Vec21 :=
  if b then v ||| (1#21 <<< i) else v &&& ~~~(1#21 <<< i)

/-! ### Driving a port (R26, R63) -/

/-- Drive `data_in` (R26). -/
def State.driveTop (s : State) (d : In16) : State := { s with dataIn := some d }

/-- Drive the scatter half (R63). -/
def State.driveScatter (s : State) (d : In16) : State := { s with scatterIn := some d }

/-- Drive parity_check_unit's fill function (R63). -/
def State.driveFill (s : State) (v : Vec21) : State := { s with fillIn := some v }

/-- Drive parity_check_unit's check function (R63). -/
def State.driveCheck (s : State) (v : Vec21) : State := { s with checkIn := some v }

/-- Drive the gather half (R63). -/
def State.driveGather (s : State) (v : Vec21) : State := { s with gatherIn := some v }

/-! ### Writing a bench register (R68) -/

/-- `V <- v`. -/
def State.writeV (s : State) (v : Vec21) : State := { s with regV := some v }

/-- `C <- c`. -/
def State.writeC (s : State) (c : Code21) : State := { s with regC := some c }

/-- `S <- x`. -/
def State.writeS (s : State) (x : Syn5) : State := { s with regS := some x }

/-- Run `k` on an operand's value; an operand that names an unwritten bench register faults (R68, R172). -/
def withVec (v : Option Vec21) (k : Vec21 → Host.Outcome State Fault Refusal) :
    Host.Outcome State Fault Refusal :=
  match v with
  | some v => k v
  | none => .fault .unwrittenBenchRegister

/-! ### The bench (R21, R68) -/

/-- The next line of the program. -/
def State.fetch (s : State) : Option Line := s.program[s.line]?

/-- A step advances one line (D19). -/
def State.advance (s : State) : State := { s with line := s.line + 1 }

/-- Place `l` as the next line; missing earlier lines, which only a state past the end of its program has, are
filled with `l`. -/
def State.placeLine (s : State) (l : Line) : State :=
  { s with
    program :=
      s.program.take s.line ++ List.replicate (s.line - s.program.length) l ++
        l :: s.program.drop (s.line + 1) }

/-- Start a program: the first line is next and every bench register is unwritten (R68). The ports and
`DATA_POS` stay (log 10). -/
def State.start (s : State) (program : List Line) : State :=
  { s with regV := none, regC := none, regS := none, program := program, line := 0 }

/-- Load a program given as text; a text outside the grammar is refused whole (R68, R172; log 10). -/
def State.load (text : List Byte) (s : State) : Host.Outcome State Fault Refusal :=
  match parseProgram text with
  | .error r => .refused (.rejected r)
  | .ok program => .next (s.start program)

/-- Construct the machine with a `DATA_POS` argument, checked once, before any operation (R24, R170, R182). -/
def State.build (table : List Nat) : Host.Outcome State Fault Refusal :=
  if h : dataPosLegal table = true then .next { State.reset with dataPos := ⟨table, h⟩ }
  else .refused .illFormedDataPos

end Sys2Proof.Machine
end

