-- ==== Sys2Proof/Machine/BitGather.lean ====
section
/-! DEFINITION. bit_scatter_gather, gather half: GATHER (43_bit_gather.md R120 to R122). -/

namespace Sys2Proof.Machine

/-- The fold of GATHER over the elements in a given order (R122 says that the order does not matter). -/
def gatherIn (order : List Nat) (v : Vec21) : Code21 :=
  order.foldl (fun c i => c ||| ((BitVec.ofBool (v.getLsbD i)).setWidth 21 <<< i)) 0#21

/-- `GATHER(v)` (R120): `c <- c | (zext_21(v[i]) << i)` for `i` in 0..20. -/
def gather (v : Vec21) : Code21 := gatherIn (List.range Config.nCode) v

/-- The gather half's output port (R63). -/
def State.gatherOut (s : State) : Option Code21 := s.gatherIn.map gather

/-- `GATHER <imm21 | V>`: `C <- GATHER(operand)` (R68, R120). -/
def execGather (x : VecOperand) (s : State) : Host.Outcome State Fault Refusal :=
  withVec (vecValue x s) fun v => .next ((s.driveGather v).writeC (gather v))

end Sys2Proof.Machine
end

