-- ==== Sys2Proof/Machine/BitScatter.lean ====
section
/-! DEFINITION. bit_scatter_gather, scatter half: SCATTER (41_bit_scatter.md R80, R82). -/

namespace Sys2Proof.Machine

/-- `SCATTER(d)` (R80): from an all-zero vector, `v[DATA_POS[i]] <- d[15-i]` for all 16 entries (R82, C1). -/
def scatter (t : DataPos) (d : In16) : Vec21 :=
  (List.range Config.nData).foldl (fun v i => writeBit v (t.pos i) (d.getLsbD (15 - i))) 0#21

/-- The scatter half's output port (R63); nothing while its input is undriven. -/
def State.scatterOut (s : State) : Option Vec21 := s.scatterIn.map (scatter s.dataPos)

/-- `SCATTER <imm16>`: `V <- SCATTER(imm16)` (R68, R80). -/
def execScatter (n : Nat) (s : State) : Host.Outcome State Fault Refusal :=
  .next ((s.driveScatter (in16 n)).writeV (scatter s.dataPos (in16 n)))

end Sys2Proof.Machine
end

