-- ==== Sys2Proof/Machine/Flags.lean ====
section
/-! DEFINITION. The computed bits: the block has no flags (10_state.md R22), and what it computes beside the data
is the five check sums of parity_check_unit (42_parity_check_unit.md R100 to R103). -/

namespace Sys2Proof.Machine

/-- `PARITY_POS[j]` (R8, R100). -/
def parityPosAt (j : Nat) : Nat := Config.parityPos.getD j 0

/-- Parity bit `j` covers the 0-based position `i`: bit `j` of `i + 1` is set (R101). -/
def covers (j i : Nat) : Bool := ((i + 1) >>> j) % 2 == 1

/-- The check set `S_j` (R102). -/
def checkSet (j : Nat) : List Nat := (List.range Config.nCode).filter (covers j)

/-- The check mask `M_j`: bit `i` set for each `i` in `S_j` (R102). -/
def checkMask (j : Nat) : Vec21 := (checkSet j).foldl (fun m i => m ||| (1#21 <<< i)) 0#21

/-- The number of set bits (R13). -/
def popcount (v : Vec21) : Nat := ((List.range Config.nCode).filter fun i => v.getLsbD i).length

/-- `check_j(v)`: the XOR of `v` over `S_j` at its current values, the own slot included (R103, R105, C7). -/
def checkSum (j : Nat) (v : Vec21) : Bool :=
  (checkSet j).foldl (fun acc i => acc ^^ v.getLsbD i) false

end Sys2Proof.Machine
end

