-- ==== Sys2Proof/Machine/ParityCheck.lean ====
section
/-! DEFINITION. parity_check_unit: PARITY_FILL and CHECK (42_parity_check_unit.md R104, R110). -/

namespace Sys2Proof.Machine

/-- One parity write: `v[PARITY_POS[j]] <- check_j(v)`, from the current values (R104, R105). -/
def fillSlot (v : Vec21) (j : Nat) : Vec21 := writeBit v (parityPosAt j) (checkSum j v)

/-- The parity writes in a given order (R106 says that the order does not matter). -/
def parityFillIn (order : List Nat) (v : Vec21) : Vec21 := order.foldl fillSlot v

/-- `PARITY_FILL(v)` (R104): the five writes in increasing `j`. -/
def parityFill (v : Vec21) : Vec21 := parityFillIn (List.range Config.nParity) v

/-- The vectors inside one PARITY_FILL (R29): the input, then the vector after each write. -/
def parityFillTrace (v : Vec21) : List Vec21 :=
  (List.range (Config.nParity + 1)).map fun k => parityFillIn (List.range k) v

/-- The five slots written from sums all taken over the input vector, as five concurrent XOR trees (R106, D14). -/
def parityFillParallel (v : Vec21) : Vec21 :=
  (List.range Config.nParity).foldl (fun w j => writeBit w (parityPosAt j) (checkSum j v)) v

/-- `CHECK(v)` (R110): `s[j] <- check_j(v)`. -/
def checkSums (v : Vec21) : Syn5 :=
  (List.range Config.nParity).foldl
    (fun s j => s ||| ((BitVec.ofBool (checkSum j v)).setWidth 5 <<< j)) 0#5

/-- The fill function's output (R63). -/
def State.fillOut (s : State) : Option Vec21 := s.fillIn.map parityFill

/-- The check function's output (R63). -/
def State.checkOut (s : State) : Option Syn5 := s.checkIn.map checkSums

/-- `FILL <imm21 | V>`: `V <- PARITY_FILL(operand)` (R68, R104). -/
def execParityFill (x : VecOperand) (s : State) : Host.Outcome State Fault Refusal :=
  withVec (vecValue x s) fun v => .next ((s.driveFill v).writeV (parityFill v))

/-- `CHECK <imm21 | V | C>`: `S <- CHECK(operand)` (R68, R110). -/
def execCheck (x : CheckOperand) (s : State) : Host.Outcome State Fault Refusal :=
  withVec (checkValue x s) fun v => .next ((s.driveCheck v).writeS (checkSums v))

end Sys2Proof.Machine
end

