-- ==== Sys2Proof/Machine/Encoder.lean ====
section
/-! DEFINITION. The top block hamming_21_16_encoder: ENCODE (44_hamming_21_16_encoder.md R140). -/

namespace Sys2Proof.Machine

/-- `ENCODE(d) = GATHER(PARITY_FILL(SCATTER(d)))` (R15, R140). -/
def encode (t : DataPos) (d : In16) : Code21 := gather (parityFill (scatter t d))

/-- `code_out[20:0]`: at all times `ENCODE(data_in)` (R27, R180); nothing while `data_in` is undriven (R171). -/
def State.codeOut (s : State) : Option Code21 := s.dataIn.map (encode s.dataPos)

/-- `ENCODE <imm16>`: `data_in` is driven and `C <- code_out` (R68, R140). -/
def execEncode (n : Nat) (s : State) : Host.Outcome State Fault Refusal :=
  .next ((s.driveTop (in16 n)).writeC (encode s.dataPos (in16 n)))

end Sys2Proof.Machine
end

