-- ==== Sys2Proof/Machine/Dispatch.lean ====
section
/-! DEFINITION. One arm for each row of spec/opcode_table.json. -/

namespace Sys2Proof.Machine

def exec (i : Instr) (s : State) : Host.Outcome State Fault Refusal :=
  match i with
  | .encode d => Sys2Proof.Machine.execEncode d s
  | .scatter d => Sys2Proof.Machine.execScatter d s
  | .parityFill x => Sys2Proof.Machine.execParityFill x s
  | .check x => Sys2Proof.Machine.execCheck x s
  | .gather x => Sys2Proof.Machine.execGather x s

end Sys2Proof.Machine
end

