-- ==== Sys2Proof/Machine/Step.lean ====
section
/-! DEFINITION. One step of the bench: fetch the next line, decode it, run it, advance one line (30_encoding.md
R68, D19). -/

namespace Sys2Proof.Machine

/-- A step. Past the last line there is none (log 8); a line outside the grammar is refused (R68, R171). -/
def step (s : State) : Host.Outcome State Fault Refusal :=
  match s.fetch with
  | none => .refused .programEnded
  | some l =>
    match decodeLine l with
    | .error r => .refused (.rejected r)
    | .ok i =>
      match exec i s with
      | .next t => .next t.advance
      | .fault f => .fault f
      | .refused r => .refused r

/-- The bare word of a table row placed as the bench's next line (log 7, log 11). A width the table does not
have leaves no line there. -/
def State.withFetchWord (s : State) (nbits w : Nat) : State :=
  match Line.ofTableWord nbits w with
  | some l => s.placeLine l
  | none => { s with program := s.program.take s.line }

end Sys2Proof.Machine
end

