-- ==== Sys2Proof/Machine/Encoding.lean ====
section
/-! DEFINITION. A program's encoding: the sequence of pairs (operation, input word), where the input word is the value
on the driven sub-block's input port (30_encoding.md R68; 95_test_vectors.md section 3). -/

namespace Sys2Proof.Machine

/-- The value on the input port an operation drives (R26, R63), as a number; nothing while it is undriven. -/
def State.portWord (s : State) : Op → Option Nat
  | .encode => s.dataIn.map BitVec.toNat
  | .scatter => s.scatterIn.map BitVec.toNat
  | .parityFill => s.fillIn.map BitVec.toNat
  | .check => s.checkIn.map BitVec.toNat
  | .gather => s.gatherIn.map BitVec.toNat

/-- The word an instruction puts on the port it drives: its literal at the port's width, or the value of the bench
register it names; nothing where that register is unwritten (R65, R68). -/
def inputWord (i : Instr) (s : State) : Option Nat :=
  match i with
  | .encode n => some (in16 n).toNat
  | .scatter n => some (in16 n).toNat
  | .parityFill x => (vecValue x s).map BitVec.toNat
  | .check x => (checkValue x s).map BitVec.toNat
  | .gather x => (vecValue x s).map BitVec.toNat

/-- The pair (operation, input word) that encodes an instruction where it runs (R68): `FILL V` with
`V = 0x153C64` is (parityFill, 0x153C64). -/
def encodePair (i : Instr) (s : State) : Option Pair := (inputWord i s).map fun w => ⟨i.op, w⟩

/-- The pair of a state's next line. -/
def State.nextPair (s : State) : Option Pair :=
  match s.fetch with
  | none => none
  | some l =>
    match decodeLine l with
    | .error _ => none
    | .ok i => encodePair i s

/-- The pairs of the next `k` lines; a line that does not run has none, nor has a line after it (log 19). -/
def encodePairs : Nat → State → List Pair
  | 0, _ => []
  | k + 1, s =>
    match step s with
    | .next t => s.nextPair.toList ++ encodePairs k t
    | .fault _ => []
    | .refused _ => []

/-- The encoding of the lines a state has still to run (R68). -/
def State.encoding (s : State) : List Pair := encodePairs (s.program.length - s.line) s

end Sys2Proof.Machine
end

