-- ==== Sys2Proof/Safety.lean ====
section
/-! DEFINITION. What claims use: the XOR over a set of positions and the check sets as the spec's own table writes
them (42_parity_check_unit.md R102), when a state's bench registers are settled outputs, and when a straight-line
program can be seen never to read an unwritten bench register (30_encoding.md R68, 60_exceptions.md R172). -/

namespace Sys2Proof.Machine

/-- `XOR_{i in l} f(i)`, as the document words it: the count of set bits, modulo 2 (R13, R103). -/
def xorOver (l : List Nat) (f : Nat → Bool) : Bool := l.countP f % 2 == 1

/-- `S_j` without its own parity position: the data positions parity bit `j` covers, transcribed from the table
of R102 (as R107 lists them). -/
def dataSet : Nat → List Nat
  | 0 => [2, 4, 6, 8, 10, 12, 14, 16, 18, 20]
  | 1 => [2, 5, 6, 9, 10, 13, 14, 17, 18]
  | 2 => [4, 5, 6, 11, 12, 13, 14, 19, 20]
  | 3 => [8, 9, 10, 11, 12, 13, 14]
  | 4 => [16, 17, 18, 19, 20]
  | _ => []

/-- The mask `M_j`, transcribed from the table of R102. -/
def tableMask : Nat → Vec21
  | 0 => 0x155555#21
  | 1 => 0x066666#21
  | 2 => 0x187878#21
  | 3 => 0x007F80#21
  | 4 => 0x1F8000#21
  | _ => 0#21

/-- `w` is `v` with its five parity slots filled: slot `2^j - 1` holds the XOR of `v` over `S_j`, the own slot's
value in `v` included, and every other position holds what it held (R104, R105, R108). -/
def FilledFrom (v w : Vec21) : Prop :=
  (∀ p < 21, p ∉ [0, 1, 3, 7, 15] → w.getLsbD p = v.getLsbD p) ∧
  (∀ j < 5, w.getLsbD (2 ^ j - 1) = (xorOver (dataSet j) v.getLsbD ^^ v.getLsbD (2 ^ j - 1)))

/-- Each written bench register holds what the output of a unit that writes it settles to now: `V` the output of
the scatter half or of the fill function, `C` that of the top block or of the gather half, `S` that of the
check function (R63, R68). -/
def State.Settled (s : State) : Prop :=
  (∀ v, s.regV = some v → s.scatterOut = some v ∨ s.fillOut = some v) ∧
  (∀ c, s.regC = some c → s.codeOut = some c ∨ s.gatherOut = some c) ∧
  (∀ x, s.regS = some x → s.checkOut = some x)

/-- Two states differ at most in what the input ports are driven with. -/
def State.SameBench (s t : State) : Prop :=
  s.dataPos = t.dataPos ∧ s.regV = t.regV ∧ s.regC = t.regC ∧ s.regS = t.regS ∧
    s.program = t.program ∧ s.line = t.line

/-- Which of the bench registers an operand can name are written. -/
structure Written where
  v : Bool
  c : Bool
  deriving DecidableEq, Repr

/-- The written bench registers of a state. -/
def State.written (s : State) : Written := ⟨s.regV.isSome, s.regC.isSome⟩

/-- The instruction reads no bench register outside `w`. -/
def readsOnly (w : Written) : Instr → Bool
  | .encode _ => true
  | .scatter _ => true
  | .parityFill (.imm _) => true
  | .parityFill .regV => w.v
  | .check (.imm _) => true
  | .check .regV => w.v
  | .check .regC => w.c
  | .gather (.imm _) => true
  | .gather .regV => w.v

/-- What is written after the instruction (R68). -/
def writtenAfter (w : Written) : Instr → Written
  | .encode _ => ⟨w.v, true⟩
  | .scatter _ => ⟨true, w.c⟩
  | .parityFill _ => ⟨true, w.c⟩
  | .check _ => w
  | .gather _ => ⟨w.v, true⟩

/-- The lines are all of the grammar, and none reads a bench register that neither `w` nor an earlier line has
written. -/
def linesSafe (w : Written) : List Line → Bool
  | [] => true
  | l :: ls =>
    match decodeLine l with
    | .error _ => false
    | .ok i => readsOnly w i && linesSafe (writtenAfter w i) ls

/-- The lines a state has still to run. -/
def State.rest (s : State) : List Line := s.program.drop s.line

end Sys2Proof.Machine
end

