-- ==== Sys2Proof/Certificates/Slice0/Obligations.lean ====
section
/-! DEFINITION. The statements for the provers. Each is named for what it states; its docstring cites the rules of
spec/ it formalises. `{ s with … }` states the frame: every field of the state that is not listed is unchanged; for the
input ports an operation does not drive, that is the model's choice (DESIGN CHOICE, log 4; DEDUCED, log 5). -/

open Sys2Proof Sys2Proof.Machine

/-! ### The tables and the start (10_state.md, 60_exceptions.md, 70_reset_and_hazards.md) -/

/-- R181: after reset the tables hold their values (`DATA_POS` the spec's default) and the bench registers are
unwritten. -/
def Obligations.ResetHoldsTablesAndUnwrittenBench : Prop :=
  State.reset.dataPos.entries = [20, 19, 18, 17, 16, 14, 13, 12, 11, 10, 9, 8, 6, 5, 4, 2] ∧
  Config.parityPos = [0, 1, 3, 7, 15] ∧
  State.reset.regV = none ∧ State.reset.regC = none ∧ State.reset.regS = none

/-- R100: parity bit `j` sits at 0-based position `2^j - 1`, at 1-based number `2^j`. -/
def Obligations.ParityPositionIsPowerOfTwoLessOne : Prop :=
  Config.parityPos.length = 5 ∧
  (∀ j < 5, parityPosAt j = 2 ^ j - 1 ∧ parityPosAt j + 1 = 2 ^ j) ∧
  (List.range 5).map parityPosAt = [0, 1, 3, 7, 15]

/-- R170: construction refuses a `DATA_POS` argument with a repeated entry, an entry above 20, or an entry in
`PARITY_POS` (and a list that is not of 16 entries, R24), and accepts every other. -/
def Obligations.IllFormedDataPosRefusedAtConstruction : Prop :=
  ∀ t : List Nat,
    (t.length ≠ 16 ∨ ¬ t.Nodup ∨ (∃ x ∈ t, 20 < x) ∨ (∃ x ∈ t, x ∈ [0, 1, 3, 7, 15]) →
      State.build t = .refused .illFormedDataPos) ∧
    (t.length = 16 → t.Nodup → (∀ x ∈ t, x ≤ 20) → (∀ x ∈ t, x ∉ [0, 1, 3, 7, 15]) →
      ∃ s, State.build t = .next s ∧ s.dataPos.entries = t)

/-- R24: the data positions and the parity positions partition 0..20, for every table a machine can hold. -/
def Obligations.PositionTablesPartitionTheCodeword : Prop :=
  ∀ t : DataPos,
    (∀ i < 16, t.pos i < 21 ∧ t.pos i ∉ [0, 1, 3, 7, 15]) ∧
    (∀ p < 21, p ∉ [0, 1, 3, 7, 15] → ∃ i < 16, t.pos i = p ∧ ∀ k < 16, t.pos k = p → k = i)

/-! ### SCATTER (41_bit_scatter.md) -/

/-- R80, R82: SCATTER completes in every state and for every integer; all 16 data bits are placed, the parity
slots are 0, the order of the writes is free; the corner cases and the example. Nothing but the scatter port and
`V` changes. -/
def Obligations.ScatterPlacesAllSixteenBits : Prop :=
  ∀ (s : State) (n : Nat), ∃ v : Vec21,
    exec (.scatter n) s =
      .next { s with scatterIn := some (BitVec.ofNat 16 n), regV := some v } ∧
    (∀ i < 16, v.getLsbD (s.dataPos.pos i) = n.testBit (15 - i)) ∧
    (∀ j < 5, v.getLsbD (2 ^ j - 1) = false) ∧
    (∀ order : List Nat, order.Perm (List.range 16) →
      order.foldl (fun w i => writeBit w (s.dataPos.pos i) (n.testBit (15 - i))) 0#21 = v) ∧
    (n % 2 ^ 16 = 0x0000 → v = 0x000000#21) ∧
    (n % 2 ^ 16 = 0xFFFF → v = 0x1F7F74#21) ∧
    (s.dataPos = DataPos.default → n % 2 ^ 16 = 0x0001 → v = 0x000004#21)

/-! ### parity_check_unit (42_parity_check_unit.md) -/

/-- R101, R102: `S_j` is the covers relation's set and the table's; its size, its mask, and the one parity
position in it. -/
def Obligations.CheckSetsMatchTheTable : Prop :=
  (∀ j < 5, ∀ i < 21, (i ∈ checkSet j ↔ (i + 1) >>> j &&& 1 = 1)) ∧
  checkSet 0 = [0, 2, 4, 6, 8, 10, 12, 14, 16, 18, 20] ∧
  checkSet 1 = [1, 2, 5, 6, 9, 10, 13, 14, 17, 18] ∧
  checkSet 2 = [3, 4, 5, 6, 11, 12, 13, 14, 19, 20] ∧
  checkSet 3 = [7, 8, 9, 10, 11, 12, 13, 14] ∧
  checkSet 4 = [15, 16, 17, 18, 19, 20] ∧
  (List.range 5).map (fun j => (checkSet j).length) = [11, 10, 10, 8, 6] ∧
  (List.range 5).map checkMask = [0x155555#21, 0x066666#21, 0x187878#21, 0x007F80#21, 0x1F8000#21] ∧
  (∀ j < 5, ∀ k < 5, (2 ^ k - 1 ∈ checkSet j ↔ k = j))

/-- R103: a check sum is the XOR over `S_j`, and the set bits under `M_j` modulo 2. -/
def Obligations.CheckSumCountsCoveredBits : Prop :=
  ∀ v : Vec21, ∀ j < 5,
    checkSum j v = xorOver ((2 ^ j - 1) :: dataSet j) v.getLsbD ∧
    checkSum j v = (popcount (v &&& tableMask j) % 2 == 1)

/-- R104, R108: FILL completes on a literal, and on `V` where it is written; each slot gets the XOR of the data
positions of `S_j` and the slot's own value on input; every other position and every other field is unchanged; the
order of the writes is free; the corner case and the examples. -/
def Obligations.FillWritesEachCheckSum : Prop :=
  (∀ (s : State) (n : Nat), ∃ w : Vec21,
    exec (.parityFill (.imm n)) s =
      .next { s with fillIn := some (BitVec.ofNat 21 n), regV := some w } ∧
    FilledFrom (BitVec.ofNat 21 n) w ∧
    ∀ order : List Nat, order.Perm (List.range 5) → parityFillIn order (BitVec.ofNat 21 n) = w) ∧
  (∀ (s : State) (v : Vec21), s.regV = some v → ∃ w : Vec21,
    exec (.parityFill .regV) s = .next { s with fillIn := some v, regV := some w } ∧ FilledFrom v w) ∧
  (∀ s : State, exec (.parityFill (.imm 0)) s =
    .next { s with fillIn := some 0#21, regV := some 0#21 }) ∧
  (∀ s : State, exec (.parityFill (.imm 0x000004)) s =
    .next { s with fillIn := some 0x000004#21, regV := some 0x000007#21 }) ∧
  (∀ s : State, exec (.parityFill (.imm 0x008005)) s =
    .next { s with fillIn := some 0x008005#21, regV := some 0x008006#21 })

/-- R106: no check set holds another parity position, so the five writes may be done in any order, or all at once
from the input vector. -/
def Obligations.FillOrderDoesNotMatter : Prop :=
  (∀ j < 5, ∀ k < 5, k ≠ j → 2 ^ k - 1 ∉ checkSet j) ∧
  (∀ (v : Vec21) (order : List Nat), order.Perm (List.range 5) → parityFillIn order v = parityFill v) ∧
  (∀ v : Vec21, parityFillParallel v = parityFill v)

/-- R109: filling a vector whose parity slots are 0 leaves every check set with an even number of ones. -/
def Obligations.FillMakesEveryCheckSetEven : Prop :=
  ∀ (s : State) (v : Vec21), (∀ j < 5, v.getLsbD (2 ^ j - 1) = false) →
    ∃ w : Vec21,
      exec (.parityFill (.imm v.toNat)) s = .next { s with fillIn := some v, regV := some w } ∧
      ∀ j < 5, popcount (w &&& tableMask j) % 2 = 0

/-- Rests on R108 (95_test_vectors.md P5 is one case): a second FILL restores the vector. -/
def Obligations.SecondFillRestoresTheVector : Prop :=
  ∀ (s : State) (v : Vec21), s.regV = some v → ∃ t u : State,
    exec (.parityFill .regV) s = .next t ∧ exec (.parityFill .regV) t = .next u ∧ u.regV = some v

/-- R110: CHECK completes on a literal, and on `V` and `C` where they are written, with all five sums in `S` and
nothing else changed but its port; 0 on every codeword; `i + 1` on a codeword with position `i` flipped; the
examples. -/
def Obligations.CheckReportsTheSyndrome : Prop :=
  (∀ (s : State) (n : Nat), ∃ r : Syn5,
    exec (.check (.imm n)) s = .next { s with checkIn := some (BitVec.ofNat 21 n), regS := some r } ∧
    ∀ j < 5, r.getLsbD j = xorOver ((2 ^ j - 1) :: dataSet j) (BitVec.ofNat 21 n).getLsbD) ∧
  (∀ (s : State) (v : Vec21), s.regV = some v → ∃ r : Syn5,
    exec (.check .regV) s = .next { s with checkIn := some v, regS := some r } ∧
    ∀ j < 5, r.getLsbD j = xorOver ((2 ^ j - 1) :: dataSet j) v.getLsbD) ∧
  (∀ (s : State) (c : Code21), s.regC = some c → ∃ r : Syn5,
    exec (.check .regC) s = .next { s with checkIn := some c, regS := some r } ∧
    ∀ j < 5, r.getLsbD j = xorOver ((2 ^ j - 1) :: dataSet j) c.getLsbD) ∧
  (∀ (s : State) (n : Nat), ∃ (t : State) (c : Code21),
    exec (.encode n) s = .next t ∧ t.regC = some c ∧
    exec (.check .regC) t = .next { t with checkIn := some c, regS := some 0#5 } ∧
    ∀ i < 21, exec (.check (.imm (c ^^^ (1#21 <<< i)).toNat)) t =
      .next { t with checkIn := some (c ^^^ (1#21 <<< i)), regS := some (BitVec.ofNat 5 (i + 1)) }) ∧
  (∀ s : State, exec (.check (.imm 0x02A3A1)) s =
    .next { s with checkIn := some 0x02A3A1#21, regS := some 0x00#5 }) ∧
  (∀ s : State, exec (.check (.imm 0x02A3A0)) s =
    .next { s with checkIn := some 0x02A3A0#21, regS := some 0x01#5 })

/-- R111: on a finished codeword, the check sum with the own slot taken as 0 is the bit stored there, and the full
check sum is 0. -/
def Obligations.StoredParityIsReproduced : Prop :=
  ∀ (s : State) (n : Nat), ∃ (t : State) (c : Code21),
    exec (.encode n) s = .next t ∧ t.regC = some c ∧
    ∀ j < 5,
      checkSum j (writeBit c (2 ^ j - 1) false) = c.getLsbD (2 ^ j - 1) ∧ checkSum j c = false

/-- R112: in the encode path the own slot is 0 when its sum is taken, so leaving it out changes nothing. -/
def Obligations.OwnSlotIsInertWhenEncoding : Prop :=
  ∀ (t : DataPos) (d : In16), ∀ j < 5,
    (parityFillIn (List.range j) (scatter t d)).getLsbD (2 ^ j - 1) = false ∧
    checkSum j (parityFillIn (List.range j) (scatter t d)) = xorOver (dataSet j) (scatter t d).getLsbD ∧
    (encode t d).getLsbD (2 ^ j - 1) = xorOver (dataSet j) (scatter t d).getLsbD

/-! ### GATHER (43_bit_gather.md) -/

/-- R120: GATHER completes on a literal, and on `V` where it is written; `c[i] = v[i]` for all 21 positions; nothing
but its port and `C` changes; the corner cases and the example. -/
def Obligations.GatherCopiesEveryElement : Prop :=
  (∀ (s : State) (n : Nat), ∃ c : Code21,
    exec (.gather (.imm n)) s =
      .next { s with gatherIn := some (BitVec.ofNat 21 n), regC := some c } ∧
    ∀ i < 21, c.getLsbD i = n.testBit i) ∧
  (∀ (s : State) (v : Vec21), s.regV = some v → ∃ c : Code21,
    exec (.gather .regV) s = .next { s with gatherIn := some v, regC := some c } ∧
    ∀ i < 21, c.getLsbD i = v.getLsbD i) ∧
  gather 0x000000#21 = 0x000000#21 ∧ gather 0x1FFFFF#21 = 0x1FFFFF#21 ∧ gather 0x000007#21 = 0x000007#21

/-- R121: shift and OR gives the sum of `v[i] * 2^i`. -/
def Obligations.GatherIsTheWeightedSum : Prop :=
  ∀ v : Vec21, (gather v).toNat = ((List.range 21).map fun i => (v.getLsbD i).toNat * 2 ^ i).sum

/-- R122: any visiting order of the fold gives `c[i] = v[i]`. -/
def Obligations.GatherOrderDoesNotMatter : Prop :=
  ∀ (v : Vec21) (order : List Nat), order.Perm (List.range 21) →
    ∀ i < 21, (gatherIn order v).getLsbD i = v.getLsbD i

/-! ### ENCODE (44_hamming_21_16_encoder.md) -/

/-- R61 (its general layout), R140: ENCODE completes in every state and for every integer; data bit `15 - i` is at
`DATA_POS[i]` and parity bit `j`, the XOR of the data positions of `S_j`, at `2^j - 1`. Nothing but `data_in` and `C`
changes. -/
def Obligations.EncodeLaysOutTheCodeword : Prop :=
  ∀ (s : State) (n : Nat), ∃ c : Code21,
    exec (.encode n) s = .next { s with dataIn := some (BitVec.ofNat 16 n), regC := some c } ∧
    (∀ i < 16, c.getLsbD (s.dataPos.pos i) = n.testBit (15 - i)) ∧
    (∀ j < 5, c.getLsbD (2 ^ j - 1) = xorOver (dataSet j) c.getLsbD)

/-- R83: every data bit survives the three stages at its table position. -/
def Obligations.DataBitsSurviveEveryStage : Prop :=
  ∀ (t : DataPos) (d : In16), ∀ i < 16,
    (scatter t d).getLsbD (t.pos i) = d.getLsbD (15 - i) ∧
    (parityFill (scatter t d)).getLsbD (t.pos i) = d.getLsbD (15 - i) ∧
    (encode t d).getLsbD (t.pos i) = d.getLsbD (15 - i)

/-- R107: the parity bits in the encode path, in terms of the data positions for every legal table, and in terms of
the input bits for the default table. -/
def Obligations.ParityBitEquations : Prop :=
  (∀ (s : State) (d : In16), ∃ c : Code21,
    exec (.encode d.toNat) s = .next { s with dataIn := some d, regC := some c } ∧
    let v := (scatter s.dataPos d).getLsbD
    c.getLsbD 0 = (v 2 ^^ v 4 ^^ v 6 ^^ v 8 ^^ v 10 ^^ v 12 ^^ v 14 ^^ v 16 ^^ v 18 ^^ v 20) ∧
    c.getLsbD 1 = (v 2 ^^ v 5 ^^ v 6 ^^ v 9 ^^ v 10 ^^ v 13 ^^ v 14 ^^ v 17 ^^ v 18) ∧
    c.getLsbD 3 = (v 4 ^^ v 5 ^^ v 6 ^^ v 11 ^^ v 12 ^^ v 13 ^^ v 14 ^^ v 19 ^^ v 20) ∧
    c.getLsbD 7 = (v 8 ^^ v 9 ^^ v 10 ^^ v 11 ^^ v 12 ^^ v 13 ^^ v 14) ∧
    c.getLsbD 15 = (v 16 ^^ v 17 ^^ v 18 ^^ v 19 ^^ v 20)) ∧
  (∀ (s : State) (x : In16), s.dataPos = DataPos.default → ∃ c : Code21,
    exec (.encode x.toNat) s = .next { s with dataIn := some x, regC := some c } ∧
    let d := x.getLsbD
    c.getLsbD 0 = (d 0 ^^ d 1 ^^ d 3 ^^ d 4 ^^ d 6 ^^ d 8 ^^ d 10 ^^ d 11 ^^ d 13 ^^ d 15) ∧
    c.getLsbD 1 = (d 0 ^^ d 2 ^^ d 3 ^^ d 5 ^^ d 6 ^^ d 9 ^^ d 10 ^^ d 12 ^^ d 13) ∧
    c.getLsbD 3 = (d 1 ^^ d 2 ^^ d 3 ^^ d 7 ^^ d 8 ^^ d 9 ^^ d 10 ^^ d 14 ^^ d 15) ∧
    c.getLsbD 7 = (d 4 ^^ d 5 ^^ d 6 ^^ d 7 ^^ d 8 ^^ d 9 ^^ d 10) ∧
    c.getLsbD 15 = (d 11 ^^ d 12 ^^ d 13 ^^ d 14 ^^ d 15))

/-- R141: under the default table, ENCODE is the closed form
`{ d[15:11], p4, d[10:4], p3, d[3:1], p2, d[0], p1, p0 }` with the equations of R107. -/
def Obligations.EncodeEqualsItsClosedForm : Prop :=
  ∀ (s : State) (x : In16), s.dataPos = DataPos.default →
    let d := x.getLsbD
    let p0 := d 0 ^^ d 1 ^^ d 3 ^^ d 4 ^^ d 6 ^^ d 8 ^^ d 10 ^^ d 11 ^^ d 13 ^^ d 15
    let p1 := d 0 ^^ d 2 ^^ d 3 ^^ d 5 ^^ d 6 ^^ d 9 ^^ d 10 ^^ d 12 ^^ d 13
    let p2 := d 1 ^^ d 2 ^^ d 3 ^^ d 7 ^^ d 8 ^^ d 9 ^^ d 10 ^^ d 14 ^^ d 15
    let p3 := d 4 ^^ d 5 ^^ d 6 ^^ d 7 ^^ d 8 ^^ d 9 ^^ d 10
    let p4 := d 11 ^^ d 12 ^^ d 13 ^^ d 14 ^^ d 15
    let c : BitVec 21 :=
      x.extractLsb' 11 5 ++ BitVec.ofBool p4 ++ x.extractLsb' 4 7 ++ BitVec.ofBool p3 ++
        x.extractLsb' 1 3 ++ BitVec.ofBool p2 ++ x.extractLsb' 0 1 ++ BitVec.ofBool p1 ++ BitVec.ofBool p0
    exec (.encode x.toNat) s = .next { s with dataIn := some x, regC := some c }

/-- R142: for every table and every input there is exactly one codeword, and ENCODE gives it in every state that has
the table. -/
def Obligations.EncodeDependsOnInputAndTablesOnly : Prop :=
  ∀ (t : DataPos) (d : In16), ∃ c : Code21,
    (∀ s : State, s.dataPos = t →
      exec (.encode d.toNat) s = .next { s with dataIn := some d, regC := some c }) ∧
    (∀ c' : Code21, (∃ s u : State, s.dataPos = t ∧ exec (.encode d.toNat) s = .next u ∧ u.regC = some c') → c' = c)

/-- R144: the all-ones input encodes to `0x1FFFFE` under every legal table; the sizes of the check sets' data
positions and the five parity bits. -/
def Obligations.AllOnesEncodesTo1FFFFE : Prop :=
  (∀ s : State, exec (.encode 0xFFFF) s =
    .next { s with dataIn := some 0xFFFF#16, regC := some 0x1FFFFE#21 }) ∧
  (List.range 5).map (fun j => ((checkSet j).filter (· ≠ 2 ^ j - 1)).length) = [10, 9, 9, 7, 5] ∧
  (List.range 5).map (fun j => (0x1FFFFE#21 : Code21).getLsbD (2 ^ j - 1)) = [false, true, true, true, true]

/-- R145: `ENCODE(a ^ b) = ENCODE(a) ^ ENCODE(b)` and `ENCODE(0) = 0` under every legal table; the example. -/
def Obligations.EncodeIsLinear : Prop :=
  (∀ (s : State) (a b : In16), ∃ t u w : State, ∃ c e : Code21,
    exec (.encode a.toNat) s = .next t ∧ t.regC = some c ∧
    exec (.encode b.toNat) s = .next u ∧ u.regC = some e ∧
    exec (.encode (a ^^^ b).toNat) s = .next w ∧ w.regC = some (c ^^^ e)) ∧
  (∀ s : State, exec (.encode 0) s = .next { s with dataIn := some 0#16, regC := some 0#21 }) ∧
  (∀ s : State, s.dataPos = DataPos.default →
    exec (.encode 0x1234) s = .next { s with dataIn := some 0x1234#16, regC := some 0x02A3A1#21 } ∧
    exec (.encode 0xABCD) s = .next { s with dataIn := some 0xABCD#16, regC := some 0x15BC65#21 } ∧
    exec (.encode 0xB9F9) s = .next { s with dataIn := some 0xB9F9#16, regC := some 0x171FC4#21 } ∧
    0x02A3A1#21 ^^^ 0x15BC65#21 = 0x171FC4#21)

/-- R146: the 16 single-bit codewords under the default table, and every codeword as the XOR of those of its set
bits. -/
def Obligations.SingleBitCodewordsGenerateTheCode : Prop :=
  let table : List Code21 :=
    [0x000007#21, 0x000019#21, 0x00002A#21, 0x00004B#21, 0x000181#21, 0x000282#21, 0x000483#21, 0x000888#21,
     0x001089#21, 0x00208A#21, 0x00408B#21, 0x018001#21, 0x028002#21, 0x048003#21, 0x088008#21, 0x108009#21]
  ∀ s : State, s.dataPos = DataPos.default →
    (∀ k < 16, exec (.encode (2 ^ k)) s =
      .next { s with dataIn := some (1#16 <<< k), regC := some (table.getD k 0#21) }) ∧
    (∀ d : In16, exec (.encode d.toNat) s =
      .next { s with
        dataIn := some d
        regC := some ((List.range 16).foldl
          (fun c k => if d.getLsbD k then c ^^^ table.getD k 0#21 else c) 0#21) })

/-- Rests on R1 ("single-error-correcting"), R101 and R145: the codewords of two different data differ in at least
three positions. -/
def Obligations.CodewordsDifferInThreePositions : Prop :=
  ∀ (s : State) (a b : In16), a ≠ b → ∃ t u : State, ∃ c e : Code21,
    exec (.encode a.toNat) s = .next t ∧ t.regC = some c ∧
    exec (.encode b.toNat) s = .next u ∧ u.regC = some e ∧
    3 ≤ popcount (c ^^^ e)

/-- Rests on R15, R21 and R184: a bench program of the three stages leaves in `C` what ENCODE leaves there. -/
def Obligations.StagesInSequenceEqualEncode : Prop :=
  ∀ (s : State) (n : Nat) (more : List Line), n < 2 ^ 16 →
    s.rest = ⟨.scatter, .word n⟩ :: ⟨.parityFill, .regV⟩ :: ⟨.gather, .regV⟩ :: more →
    ∃ t u : State,
      Host.Core.run Sys2Proof.core 3 s = .next t ∧ exec (.encode n) s = .next u ∧
      t.regC = u.regC ∧ t.regV = u.regC ∧ t.line = s.line + 3 ∧ t.rest = more

/-- Rests on R27 and R180: after ENCODE `C` is `code_out`, which is `ENCODE(data_in)`. That no other operation moves
`code_out` rests on the model's choice that `data_in` keeps its last value between operations (DESIGN CHOICE, log 4). -/
def Obligations.CodeOutEncodesDataIn : Prop :=
  (∀ (s t : State) (n : Nat), exec (.encode n) s = .next t →
    t.dataIn = some (BitVec.ofNat 16 n) ∧ t.codeOut = t.dataIn.map (encode s.dataPos) ∧ t.regC = t.codeOut) ∧
  (∀ (s t : State) (i : Instr), i.op ≠ .encode → exec i s = .next t → t.codeOut = s.codeOut)

/-! ### Operands and ports (30_encoding.md) -/

/-- R65: only the low 16 bits of an integer on a 16-bit port are used, and only the low 21 of one on a 21-bit
port. -/
def Obligations.WideInputsAreTruncated : Prop :=
  ∀ (s : State) (n : Nat),
    exec (.encode n) s = exec (.encode (n &&& 0xFFFF)) s ∧
    exec (.scatter n) s = exec (.scatter (n &&& 0xFFFF)) s ∧
    exec (.parityFill (.imm n)) s = exec (.parityFill (.imm (n &&& 0x1FFFFF))) s ∧
    exec (.check (.imm n)) s = exec (.check (.imm (n &&& 0x1FFFFF))) s ∧
    exec (.gather (.imm n)) s = exec (.gather (.imm (n &&& 0x1FFFFF))) s

/-- Rests on R68 (the input word is the value on the driven port): an operand that names a written bench register
runs as that register's value. -/
def Obligations.RegisterOperandRunsAsItsValue : Prop :=
  ∀ (s : State) (v : Vec21),
    (s.regV = some v →
      exec (.parityFill .regV) s = exec (.parityFill (.imm v.toNat)) s ∧
      exec (.check .regV) s = exec (.check (.imm v.toNat)) s ∧
      exec (.gather .regV) s = exec (.gather (.imm v.toNat)) s) ∧
    (s.regC = some v → exec (.check .regC) s = exec (.check (.imm v.toNat)) s)

/-- Rests on R22, R23, R24, R63 and R68: what an operation leaves unchanged. The table, the program and the line
index always; each bench register but the operation's result register; each port but the one it drives. The five port
clauses rest on the model's choice that a port keeps its last value (DESIGN CHOICE, log 4) and on its reading of R63 as
one input port for each operation (DEDUCED, log 5). -/
def Obligations.OperationsKeepEverythingElse : Prop :=
  ∀ (i : Instr) (s t : State), exec i s = .next t →
    t.dataPos = s.dataPos ∧ t.program = s.program ∧ t.line = s.line ∧
    (i.op ≠ .scatter → i.op ≠ .parityFill → t.regV = s.regV) ∧
    (i.op ≠ .encode → i.op ≠ .gather → t.regC = s.regC) ∧
    (i.op ≠ .check → t.regS = s.regS) ∧
    (i.op ≠ .encode → t.dataIn = s.dataIn) ∧
    (i.op ≠ .scatter → t.scatterIn = s.scatterIn) ∧
    (i.op ≠ .parityFill → t.fillIn = s.fillIn) ∧
    (i.op ≠ .check → t.checkIn = s.checkIn) ∧
    (i.op ≠ .gather → t.gatherIn = s.gatherIn)

/-- Rests on R46: applying an operation again to the same input gives the same output, and no other change (of the
ports, by the model's choice that they keep their last value: DESIGN CHOICE, log 4). -/
def Obligations.RepeatedOperationChangesNothing : Prop :=
  ∀ (i : Instr) (s t : State), i.input ≠ .regV → i.input ≠ .regC → exec i s = .next t → exec i t = .next t

/-- Rests on R48 and R183: what an operation on a literal gives does not depend on the operation before it. -/
def Obligations.ResultsIgnoreEarlierOperations : Prop :=
  ∀ (i k : Instr) (s t : State), k.input ≠ .regV → k.input ≠ .regC → exec i s = .next t →
    ∃ u w : State, exec k s = .next u ∧ exec k t = .next w ∧
      (k.op = .encode ∨ k.op = .gather → w.regC = u.regC ∧ w.regV = t.regV ∧ w.regS = t.regS) ∧
      (k.op = .scatter ∨ k.op = .parityFill → w.regV = u.regV ∧ w.regC = t.regC ∧ w.regS = t.regS) ∧
      (k.op = .check → w.regS = u.regS ∧ w.regV = t.regV ∧ w.regC = t.regC)

/-! ### The bench (30_encoding.md R68, 60_exceptions.md section 5) -/

/-- Rests on R68 (D19): where the next line decodes to an instruction, a step is that instruction's effect and one
line further. -/
def Obligations.StepRunsTheDecodedLine : Prop :=
  ∀ (s : State) (l : Line) (i : Instr), s.program[s.line]? = some l → decodeLine l = .ok i →
    (∀ t, exec i s = .next t → step s = .next { t with line := s.line + 1 }) ∧
    (∀ f, exec i s = .fault f → step s = .fault f) ∧
    (∀ r, exec i s ≠ .refused r)

/-- Rests on R66: a bare table word placed as the next line runs as the instruction the decoder reads from it. Which
operation a bare word stands for, and that it is placed at the line index, are the model's choice (log 7, log 11). -/
def Obligations.PlacedTableWordRuns : Prop :=
  ∀ (s : State) (nbits w : Nat) (i : Instr), decodeTableWord nbits w = some i →
    ∃ t : State,
      exec i (s.withFetchWord nbits w) = .next t ∧
      step (s.withFetchWord nbits w) = .next { t with line := s.line + 1 } ∧
      t.dataPos = s.dataPos

/-- Rests on R68 and R172: on a step, an operand that names an unwritten bench register faults, and an out-of-range
literal is refused. No operation has an operand form that reads `S` (R68), so a line that names it is refused. That the
grammar refuses a line placed in the program when the step reaches it is the model's choice (DESIGN CHOICE, log 10). -/
def Obligations.BenchFaultsAndRefusals : Prop :=
  ∀ s : State,
    (∀ op, op = .parityFill ∨ op = .check ∨ op = .gather →
      s.program[s.line]? = some ⟨op, .regV⟩ → s.regV = none → step s = .fault .unwrittenBenchRegister) ∧
    (s.program[s.line]? = some ⟨.check, .regC⟩ → s.regC = none → step s = .fault .unwrittenBenchRegister) ∧
    (∀ op n, 2 ^ op.inWidth ≤ n → s.program[s.line]? = some ⟨op, .word n⟩ →
      step s = .refused (.rejected .literalOutOfRange)) ∧
    (∀ op, s.program[s.line]? = some ⟨op, .regS⟩ → step s = .refused (.rejected .operandNotInGrammar))

/-- Rests on R171: an operation whose input is undriven is refused, whatever the operation and the state. That a bench
line can hold an undriven input, and that the step refuses it before the operation runs, is the model's choice (DESIGN
CHOICE, log 18). -/
def Obligations.UndrivenInputIsRefused : Prop :=
  ∀ (s : State) (op : Op), s.program[s.line]? = some ⟨op, .undriven⟩ →
    step s = .refused (.rejected .undrivenInput)

/-- Rests on R68: decoding the encoded line of an instruction of the grammar gives it back, and a line that decodes
is the encoding of what it decodes to. -/
def Obligations.LineDecodesToItsInstruction : Prop :=
  (∀ i : Instr, i.wf = true → decodeLine (encodeLine i) = .ok i) ∧
  (∀ (l : Line) (i : Instr), decodeLine l = .ok i → encodeLine i = l ∧ i.wf = true)

/-- Rests on R68: the text of an instruction of the grammar reads back as it, for every operand and every literal in
range. The lexical form is the model's choice where R68 is silent (DESIGN CHOICE, log 9). -/
def Obligations.TextReadsBackAsItsInstruction : Prop :=
  ∀ i : Instr, i.wf = true → decodeText (textOf i) = .ok i

/-- A few lines of 95_test_vectors.md, written out, read as the instructions they stand for. -/
def Obligations.SampleLinesDecode : Prop :=
  decodeText (ascii ['E', 'N', 'C', 'O', 'D', 'E', ' ', '0', 'x', '1', '2', '3', '4']) = .ok (.encode 0x1234) ∧
  decodeText (ascii ['S', 'C', 'A', 'T', 'T', 'E', 'R', ' ', '0', 'x', 'A', 'B', 'C', 'D']) =
    .ok (.scatter 0xABCD) ∧
  decodeText (ascii ['F', 'I', 'L', 'L', ' ', ' ', ' ', ' ', 'V', ' ', ';', ' ', '(']) = .ok (.parityFill .regV) ∧
  decodeText (ascii ['C', 'H', 'E', 'C', 'K', ' ', ' ', 'C']) = .ok (.check .regC) ∧
  decodeText (ascii ['G', 'A', 'T', 'H', 'E', 'R', ' ', '0', 'x', '1', 'F', 'F', 'F', 'F', 'F']) =
    .ok (.gather (.imm 0x1FFFFF))

/-- Rests on R68 and R172: a program is loaded with every bench register unwritten and its first line next, each of
its lines being of the grammar. A text is its lines, joined by line feeds: where each is blank or of the grammar, the
program is the lines they read as, in order, none dropped; where one is not, the text is refused by the first such
line's reason. That the ports stay as they are driven, and that a text is refused whole, is the model's choice (DESIGN
CHOICE, log 10), and so are line feeds and blank lines (DESIGN CHOICE, log 9). -/
def Obligations.LoadStartsAnUnwrittenBench : Prop :=
  (∀ (text : List Byte) (s t : State), State.load text s = .next t →
    t = { s with regV := none, regC := none, regS := none, program := t.program, line := 0 } ∧
    ∀ l ∈ t.program, ∃ i, decodeLine l = .ok i ∧ i.wf = true) ∧
  (∀ text : List Byte, ∃ ls : List (List Byte),
    ls ≠ [] ∧ (∀ l ∈ ls, 0x0A#8 ∉ l) ∧ text = List.intercalate [0x0A#8] ls) ∧
  (∀ (ls : List (List Byte)) (s : State), (∀ l ∈ ls, 0x0A#8 ∉ l) →
    (∀ l ∈ ls, parseLine l = .ok none ∨ ∃ x i, parseLine l = .ok (some x) ∧ decodeLine x = .ok i) →
    State.load (List.intercalate [0x0A#8] ls) s =
      .next { s with
        regV := none
        regC := none
        regS := none
        program := ls.filterMap fun l => (parseLine l).toOption.join
        line := 0 }) ∧
  (∀ (before after : List (List Byte)) (bad : List Byte) (r : Reject) (s : State),
    (∀ l ∈ before ++ bad :: after, 0x0A#8 ∉ l) →
    (∀ l ∈ before, parseLine l = .ok none ∨ ∃ x i, parseLine l = .ok (some x) ∧ decodeLine x = .ok i) →
    (parseLine bad = .error r ∨ ∃ x, parseLine bad = .ok (some x) ∧ decodeLine x = .error r) →
    State.load (List.intercalate [0x0A#8] (before ++ bad :: after)) s = .refused (.rejected r))

/-- Rests on R68: loading the texts of instructions of the grammar, one a line, places exactly those instructions'
lines, in order, with every bench register unwritten and the first line next. The lexical form of the texts is the
model's choice where R68 is silent (DESIGN CHOICE, log 9), and that the ports stay is too (DESIGN CHOICE, log 10). -/
def Obligations.LoadedTextsAreTheProgram : Prop :=
  ∀ (is : List Instr) (s : State), (∀ i ∈ is, i.wf = true) →
    State.load (List.intercalate [0x0A#8] (is.map textOf)) s =
      .next { s with regV := none, regC := none, regS := none, program := is.map encodeLine, line := 0 }

/-- Rests on R68: the pair that encodes an operation is the operation and the word on the port it drives, a word of the
port's width; the pair decodes, and what it decodes to does what the operation did. -/
def Obligations.PairIsTheWordOnTheDrivenPort : Prop :=
  ∀ (i : Instr) (s t : State), exec i s = .next t →
    ∃ p : Pair, encodePair i s = some p ∧
      p.op = i.op ∧ t.portWord i.op = some p.word ∧ p.word < 2 ^ i.op.inWidth ∧
      ∃ j : Instr, decodeLine p.line = .ok j ∧ exec j s = .next t

/-- Rests on R68: a program that runs for `k` lines has `k` pairs, and the program of those pairs as literals runs to
the same bench registers and ports (a port keeps its last value by the model's choice: DESIGN CHOICE, log 4). -/
def Obligations.ProgramRunsAsItsPairs : Prop :=
  ∀ (k : Nat) (s t : State), Host.Core.run Sys2Proof.core k s = .next t →
    (encodePairs k s).length = k ∧
    Host.Core.run Sys2Proof.core k { s with program := (encodePairs k s).map Pair.line, line := 0 } =
      .next { t with program := (encodePairs k s).map Pair.line, line := k }
/-- Rests on R63, R68 and R46: a step keeps each written bench register equal to an output of a unit that writes
it. That a port keeps its value between operations is the model's choice (log 4). -/
def Obligations.StepKeepsBenchSettled : Prop :=
  ∀ s t : State, s.Settled → step s = .next t → t.Settled

/-- Rests on R68 and R181: reset, and loading a program in any state, leave the bench registers settled, since they
are unwritten. -/
def Obligations.ResetAndLoadAreSettled : Prop :=
  State.reset.Settled ∧ ∀ (text : List Byte) (s t : State), State.load text s = .next t → t.Settled

/-- Rests on R21, R24 and R68 (D19): a run of `k` steps advances `k` lines and no further than the program's end, so every
program terminates; no run changes the program or the table. -/
def Obligations.RunAdvancesOneLineAStep : Prop :=
  ∀ (k : Nat) (s t : State), Host.Core.run Sys2Proof.core k s = .next t →
    t.line = s.line + k ∧ t.program = s.program ∧ t.dataPos = s.dataPos ∧
    (k ≠ 0 → t.line ≤ s.program.length)

/-- Rests on R68 and R172: a straight-line program runs to its end if and only if all its remaining lines are of the
grammar and none reads a bench register that nothing has written. -/
def Obligations.ReadBeforeWriteCheckIsExact : Prop :=
  ∀ s : State,
    (∃ t : State, Host.Core.run Sys2Proof.core s.rest.length s = .next t) ↔ linesSafe s.written s.rest = true

/-- Rests on R10, R28, R48 and R142: what the ports were driven with before never changes a result. Two states that
differ only there run alike for any number of steps. -/
def Obligations.EarlierPortValuesNeverMatter : Prop :=
  ∀ (k : Nat) (s s' : State), s.SameBench s' →
    (∀ t : State, Host.Core.run Sys2Proof.core k s = .next t →
      ∃ t' : State, Host.Core.run Sys2Proof.core k s' = .next t' ∧ t.SameBench t') ∧
    (∀ f, Host.Core.run Sys2Proof.core k s = .fault f → Host.Core.run Sys2Proof.core k s' = .fault f) ∧
    (∀ r, Host.Core.run Sys2Proof.core k s = .refused r → Host.Core.run Sys2Proof.core k s' = .refused r)
end

