-- ==== Sys2Proof/Laws/Bits.lean ====
section
/-! SUPPORT. One element of a written vector (`writeBit`), of a shifted bit, and extensionality of vectors. -/

namespace Sys2Proof.Machine

theorem getLsbD_one_shiftLeft (i p : Nat) :
    (1#21 <<< i).getLsbD p = (decide (p = i) && decide (p < 21)) := by
  rw [BitVec.getLsbD_shiftLeft]
  by_cases h : p = i
  · subst h; simp
  · by_cases h2 : p < i
    · simp [h, h2]
    · have : p - i ≠ 0 := by omega
      simp [h, h2, BitVec.getLsbD_one, this]

theorem writeBit_getLsbD (v : Vec21) (i p : Nat) (b : Bool) :
    (writeBit v i b).getLsbD p = if p = i ∧ p < 21 then b else v.getLsbD p := by
  by_cases hp : p < 21
  · cases b
    · rw [writeBit, if_neg (by simp), BitVec.getLsbD_and, BitVec.getLsbD_not, getLsbD_one_shiftLeft]
      by_cases h : p = i
      · subst h; simp [hp]
      · simp [h, hp]
    · rw [writeBit, if_pos rfl, BitVec.getLsbD_or, getLsbD_one_shiftLeft]
      by_cases h : p = i
      · subst h; simp [hp]
      · simp [h]
  · rw [if_neg (by omega), BitVec.getLsbD_of_ge _ _ (by omega), BitVec.getLsbD_of_ge _ _ (by omega)]

theorem vec_ext {v w : Vec21} (h : ∀ p < 21, v.getLsbD p = w.getLsbD p) : v = w :=
  BitVec.eq_of_getLsbD_eq h

theorem getLsbD_ofBool_shiftLeft (n i p : Nat) (b : Bool) (hn : 0 < n) :
    ((BitVec.ofBool b).setWidth n <<< i).getLsbD p = (decide (p = i) && (decide (p < n) && b)) := by
  rw [BitVec.getLsbD_shiftLeft, BitVec.getLsbD_setWidth, BitVec.getLsbD_ofBool]
  by_cases h : p = i
  · subst h; simp [hn]
  · by_cases h2 : p < i
    · simp [h, h2]
    · have : p - i ≠ 0 := by omega
      simp [h, h2, this]

end Sys2Proof.Machine
end

