-- ==== Sys2Proof/Laws/Gather.lean ====
section
/-! SUPPORT. GATHER: element `p` of the fold in any order (43_bit_gather.md R120, R122). -/

namespace Sys2Proof.Machine

theorem gatherIn_getLsbD (order : List Nat) (v : Vec21) (p : Nat) :
    (gatherIn order v).getLsbD p = (decide (p ∈ order) && v.getLsbD p) := by
  suffices h : ∀ c : Code21, (order.foldl
      (fun c i => c ||| ((BitVec.ofBool (v.getLsbD i)).setWidth 21 <<< i)) c).getLsbD p =
        (c.getLsbD p || (decide (p ∈ order) && v.getLsbD p)) by
    simpa [gatherIn] using h 0#21
  induction order with
  | nil => simp
  | cons i order ih =>
    intro c
    rw [List.foldl_cons, ih, BitVec.getLsbD_or, getLsbD_ofBool_shiftLeft _ _ _ _ (by decide)]
    by_cases hp : p < 21
    · by_cases h : p = i
      · subst h; cases c.getLsbD p <;> cases v.getLsbD p <;> simp [hp]
      · simp [h]
    · simp [BitVec.getLsbD_of_ge v p (by omega), hp]

theorem gather_eq (v : Vec21) : gather v = v := by
  apply vec_ext
  intro p hp
  rw [gather, gatherIn_getLsbD, Config.nCode, decide_eq_true (List.mem_range.2 hp), Bool.true_and]

end Sys2Proof.Machine
end

