-- ==== Sys2Proof/Laws/Xor.lean ====
section
/-! SUPPORT. `xorOver`: the XOR over a list of positions splits over cons, append, permutation and XOR. -/

namespace Sys2Proof.Machine

@[simp] theorem xorOver_nil (f : Nat → Bool) : xorOver [] f = false := rfl

@[simp] theorem xorOver_cons (a : Nat) (l : List Nat) (f : Nat → Bool) :
    xorOver (a :: l) f = (f a ^^ xorOver l f) := by
  unfold xorOver
  rw [List.countP_cons]
  rcases Nat.mod_two_eq_zero_or_one (l.countP f) with h | h <;> cases f a <;>
    simp [h, Nat.add_mod]

theorem xorOver_append (l k : List Nat) (f : Nat → Bool) :
    xorOver (l ++ k) f = (xorOver l f ^^ xorOver k f) := by
  induction l with
  | nil => simp
  | cons a l ih => simp [ih]

theorem xorOver_congr {l : List Nat} {f g : Nat → Bool} (h : ∀ i ∈ l, f i = g i) :
    xorOver l f = xorOver l g := by
  induction l with
  | nil => rfl
  | cons a l ih =>
    rw [xorOver_cons, xorOver_cons, h a (by simp), ih fun i hi => h i (by simp [hi])]

theorem xorOver_xor (l : List Nat) (f g : Nat → Bool) :
    xorOver l (fun i => f i ^^ g i) = (xorOver l f ^^ xorOver l g) := by
  induction l with
  | nil => rfl
  | cons a l ih =>
    rw [xorOver_cons, xorOver_cons, xorOver_cons, ih]
    cases f a <;> cases g a <;> cases xorOver l f <;> cases xorOver l g <;> rfl

theorem xorOver_perm {l k : List Nat} (h : l.Perm k) (f : Nat → Bool) : xorOver l f = xorOver k f := by
  unfold xorOver; rw [h.countP_eq]

theorem xorOver_single (l : List Nat) (hl : l.Nodup) (i : Nat) :
    xorOver l (fun p => decide (p = i)) = decide (i ∈ l) := by
  induction l with
  | nil => rfl
  | cons a l ih =>
    obtain ⟨ha, hl⟩ := List.nodup_cons.1 hl
    rw [xorOver_cons, ih hl]
    by_cases h : a = i
    · subst h; simp [ha]
    · have : i ≠ a := fun h' => h h'.symm
      simp [h, this]

end Sys2Proof.Machine
end

