-- ==== Sys2Proof/Laws/Parity.lean ====
section
/-! SUPPORT. parity_check_unit: a check sum as an XOR over a check set, and every element of PARITY_FILL and CHECK. -/

namespace Sys2Proof.Machine

theorem checkSum_eq_xorOver (j : Nat) (v : Vec21) : checkSum j v = xorOver (checkSet j) v.getLsbD := by
  suffices h : ∀ (l : List Nat) (b : Bool), l.foldl (fun acc i => acc ^^ v.getLsbD i) b =
      (b ^^ xorOver l v.getLsbD) by simpa [checkSum] using h (checkSet j) false
  intro l
  induction l with
  | nil => simp
  | cons a l ih => intro b; rw [List.foldl_cons, ih, xorOver_cons, Bool.xor_assoc]

theorem checkSum_xor (j : Nat) (v w : Vec21) : checkSum j (v ^^^ w) = (checkSum j v ^^ checkSum j w) := by
  rw [checkSum_eq_xorOver, checkSum_eq_xorOver, checkSum_eq_xorOver, ← xorOver_xor]
  exact xorOver_congr fun i _ => BitVec.getLsbD_xor

/-- `S_j` is the own slot and the data positions of R102's table. -/
theorem checkSet_perm : ∀ j < 5, (checkSet j).Perm ((2 ^ j - 1) :: dataSet j) := by decide +kernel

theorem checkSum_eq_dataSet {j : Nat} (hj : j < 5) (v : Vec21) :
    checkSum j v = (xorOver (dataSet j) v.getLsbD ^^ v.getLsbD (2 ^ j - 1)) := by
  rw [checkSum_eq_xorOver, xorOver_perm (checkSet_perm j hj), xorOver_cons, Bool.xor_comm]

theorem parityPosAt_eq : ∀ j < 5, parityPosAt j = 2 ^ j - 1 := by decide

theorem dataSet_disjoint : ∀ j < 5, ∀ k < 5, 2 ^ k - 1 ∉ dataSet j := by decide

theorem dataSet_lt : ∀ j < 5, ∀ i ∈ dataSet j, i < 21 := by decide

theorem slot_injective : ∀ j < 5, ∀ k < 5, 2 ^ j - 1 = 2 ^ k - 1 → j = k := by decide

theorem slot_lt : ∀ j < 5, 2 ^ j - 1 < 21 := by decide

theorem xorOver_dataSet_of_eq {j : Nat} (hj : j < 5) {v w : Vec21}
    (h : ∀ p, p ∉ [0, 1, 3, 7, 15] → v.getLsbD p = w.getLsbD p) :
    xorOver (dataSet j) v.getLsbD = xorOver (dataSet j) w.getLsbD := by
  apply xorOver_congr
  intro i hi
  apply h
  have hd : ∀ j < 5, ∀ i ∈ dataSet j, i ∉ [0, 1, 3, 7, 15] := by decide
  exact hd j hj i hi

theorem slot_mem : ∀ j < 5, 2 ^ j - 1 ∈ [0, 1, 3, 7, 15] := by decide

/-- One parity write. -/
theorem fillSlot_getLsbD {j : Nat} (hj : j < 5) (v : Vec21) (p : Nat) :
    (fillSlot v j).getLsbD p = if p = 2 ^ j - 1 then checkSum j v else v.getLsbD p := by
  rw [fillSlot, writeBit_getLsbD, parityPosAt_eq j hj]
  have := slot_lt j hj
  by_cases h : p = 2 ^ j - 1 <;> simp [h, this]

theorem parityFillIn_cons (k : Nat) (order : List Nat) (v : Vec21) :
    parityFillIn (k :: order) v = parityFillIn order (fillSlot v k) := rfl

theorem checkSum_fillSlot_other {j k : Nat} (hj : j < 5) (hk : k < 5) (hjk : j ≠ k) (v : Vec21) :
    checkSum j (fillSlot v k) = checkSum j v := by
  rw [checkSum_eq_dataSet hj, checkSum_eq_dataSet hj, fillSlot_getLsbD hk,
    if_neg fun h => hjk (slot_injective j hj k hk h)]
  congr 1
  apply xorOver_dataSet_of_eq hj
  intro q hq
  rw [fillSlot_getLsbD hk, if_neg]
  rintro rfl
  exact hq (slot_mem k hk)

theorem parityFillIn_getLsbD_other {order : List Nat} (h5 : ∀ j ∈ order, j < 5) (v : Vec21) {p : Nat}
    (hp : ∀ j ∈ order, p ≠ 2 ^ j - 1) : (parityFillIn order v).getLsbD p = v.getLsbD p := by
  induction order generalizing v with
  | nil => rfl
  | cons k order ih =>
    rw [parityFillIn_cons, ih (fun j hj => h5 j (by simp [hj])) _ fun j hj => hp j (by simp [hj]),
      fillSlot_getLsbD (h5 k (by simp)), if_neg (hp k (by simp))]

theorem parityFillIn_getLsbD_slot {order : List Nat} (hn : order.Nodup) (h5 : ∀ j ∈ order, j < 5) (v : Vec21)
    {j : Nat} (hj : j ∈ order) : (parityFillIn order v).getLsbD (2 ^ j - 1) = checkSum j v := by
  induction order generalizing v with
  | nil => simp at hj
  | cons k order ih =>
    obtain ⟨hk, hn⟩ := List.nodup_cons.1 hn
    have hk5 := h5 k (by simp)
    have h5' : ∀ j ∈ order, j < 5 := fun j hj => h5 j (by simp [hj])
    rw [parityFillIn_cons]
    rcases List.mem_cons.1 hj with hjk | hj
    · subst hjk
      rw [parityFillIn_getLsbD_other h5', fillSlot_getLsbD hk5, if_pos rfl]
      intro i hi h
      exact hk (slot_injective j hk5 i (h5' i hi) h ▸ hi)
    · rw [ih hn h5' _ hj, checkSum_fillSlot_other (h5' j hj) hk5]
      rintro rfl
      exact hk ‹_›

theorem parityFill_getLsbD_slot {j : Nat} (hj : j < 5) (v : Vec21) :
    (parityFill v).getLsbD (2 ^ j - 1) = (xorOver (dataSet j) v.getLsbD ^^ v.getLsbD (2 ^ j - 1)) := by
  rw [parityFill, parityFillIn_getLsbD_slot List.nodup_range (by simp [Config.nParity])
    v (by simpa [Config.nParity] using hj), checkSum_eq_dataSet hj]

theorem parityFill_getLsbD_data {p : Nat} (hp : p ∉ [0, 1, 3, 7, 15]) (v : Vec21) :
    (parityFill v).getLsbD p = v.getLsbD p := by
  apply parityFillIn_getLsbD_other (by simp [Config.nParity])
  intro j hj h
  exact hp (h ▸ slot_mem j (by simpa [Config.nParity] using hj))

theorem filledFrom_parityFill (v : Vec21) : FilledFrom v (parityFill v) :=
  ⟨fun _ _ hp => parityFill_getLsbD_data hp v, fun _ hj => parityFill_getLsbD_slot hj v⟩

/-- A position is a slot or a data position. -/
theorem slot_of_mem : ∀ p ∈ [0, 1, 3, 7, 15], ∃ j < 5, p = 2 ^ j - 1 := by decide

theorem FilledFrom.unique {v w w' : Vec21} (h : FilledFrom v w) (h' : FilledFrom v w') : w = w' := by
  apply vec_ext
  intro p hp
  by_cases hm : p ∈ [0, 1, 3, 7, 15]
  · obtain ⟨j, hj, rfl⟩ := slot_of_mem p hm
    rw [h.2 j hj, h'.2 j hj]
  · rw [h.1 p hp hm, h'.1 p hp hm]

theorem checkSum_parityFill {j : Nat} (hj : j < 5) (v : Vec21) :
    checkSum j (parityFill v) = v.getLsbD (2 ^ j - 1) := by
  rw [checkSum_eq_dataSet hj, parityFill_getLsbD_slot hj,
    xorOver_dataSet_of_eq hj fun p hp => parityFill_getLsbD_data hp v, ← Bool.xor_assoc, Bool.xor_self,
    Bool.false_xor]

theorem checkSums_getLsbD (v : Vec21) (j : Nat) : (checkSums v).getLsbD j = (decide (j < 5) && checkSum j v) := by
  suffices h : ∀ (l : List Nat) (s : Syn5), (l.foldl
      (fun s j => s ||| ((BitVec.ofBool (checkSum j v)).setWidth 5 <<< j)) s).getLsbD j =
        (s.getLsbD j || (decide (j ∈ l) && (decide (j < 5) && checkSum j v))) by
    rw [checkSums, h]; simp [Config.nParity]
  intro l
  induction l with
  | nil => simp
  | cons i l ih =>
    intro s
    rw [List.foldl_cons, ih, BitVec.getLsbD_or, getLsbD_ofBool_shiftLeft _ _ _ _ (by decide)]
    by_cases h : j = i
    · subst h; cases s.getLsbD j <;> cases checkSum j v <;> simp
    · simp [h]

end Sys2Proof.Machine
end

