-- ==== Sys2Proof/Laws/Table.lean ====
section
/-! SUPPORT. The parameter `DATA_POS`: what the partition check gives (10_state.md R24). -/

namespace Sys2Proof

theorem DataPos.length_eq (t : DataPos) : t.entries.length = 16 := by
  have h := t.legal
  simp only [dataPosLegal, Bool.and_eq_true, beq_iff_eq] at h
  exact h.1

theorem DataPos.count_eq (t : DataPos) {p : Nat} (hp : p < 21) :
    (t.entries ++ [0, 1, 3, 7, 15]).count p = 1 := by
  have h := t.legal
  simp only [dataPosLegal, Bool.and_eq_true, List.all_eq_true, beq_iff_eq] at h
  exact h.2 p (by simpa [Config.nCode] using hp)

/-- A list of 21 entries that holds each of 0..20 once is a permutation of them. -/
theorem perm_range_of_count {l : List Nat} (hl : l.length = 21) (h : ∀ p < 21, l.count p = 1) :
    l.Perm (List.range 21) := by
  have hperm : (l.filter (· < 21)).Perm (List.range 21) := by
    rw [List.perm_iff_count]
    intro p
    by_cases hp : p < 21
    · rw [List.count_filter (by simpa using hp), h p hp,
        List.count_eq_one_of_mem List.nodup_range (by simpa using hp)]
    · rw [List.count_eq_zero_of_not_mem (by simp [hp]), List.count_eq_zero_of_not_mem (by simp; omega)]
  have hall : l.filter (· < 21) = l := by
    apply List.filter_eq_self.2
    apply List.length_filter_eq_length_iff.1
    rw [hperm.length_eq, List.length_range, hl]
  rwa [hall] at hperm

/-- The partition invariant (R24): the two tables together are 0..20, each once. -/
theorem DataPos.perm_range (t : DataPos) : (t.entries ++ [0, 1, 3, 7, 15]).Perm (List.range 21) :=
  perm_range_of_count (by simp [t.length_eq]) fun _ hp => t.count_eq hp

theorem DataPos.nodup_append (t : DataPos) : (t.entries ++ [0, 1, 3, 7, 15]).Nodup :=
  t.perm_range.nodup_iff.2 List.nodup_range

theorem DataPos.pos_eq_getElem (t : DataPos) {i : Nat} (hi : i < 16) :
    t.pos i = t.entries[i]'(by rw [t.length_eq]; exact hi) := by
  simp [DataPos.pos, t.length_eq, hi]

theorem DataPos.pos_mem (t : DataPos) {i : Nat} (hi : i < 16) : t.pos i ∈ t.entries := by
  rw [t.pos_eq_getElem hi]; exact List.getElem_mem _

theorem DataPos.pos_lt (t : DataPos) {i : Nat} (hi : i < 16) : t.pos i < 21 := by
  have : t.pos i ∈ List.range 21 := t.perm_range.mem_iff.1 (by simp [t.pos_mem hi])
  simpa using this

theorem DataPos.pos_not_slot (t : DataPos) {i : Nat} (hi : i < 16) : t.pos i ∉ [0, 1, 3, 7, 15] :=
  fun h => List.disjoint_of_nodup_append t.nodup_append (t.pos_mem hi) h

theorem DataPos.pos_injective (t : DataPos) {i k : Nat} (hi : i < 16) (hk : k < 16) (h : t.pos i = t.pos k) :
    i = k := by
  rw [t.pos_eq_getElem hi, t.pos_eq_getElem hk] at h
  exact (List.Nodup.getElem_inj_iff (List.Nodup.of_append_left t.nodup_append)).1 h

/-- Every position that is no parity slot is an entry of the table. -/
theorem DataPos.exists_pos (t : DataPos) {p : Nat} (hp : p < 21) (hs : p ∉ [0, 1, 3, 7, 15]) :
    ∃ i < 16, t.pos i = p := by
  have h : p ∈ t.entries ++ [0, 1, 3, 7, 15] := t.perm_range.mem_iff.2 (by simpa using hp)
  rcases List.mem_append.1 h with h | h
  · obtain ⟨i, hi, rfl⟩ := List.getElem_of_mem h
    exact ⟨i, t.length_eq ▸ hi, t.pos_eq_getElem (t.length_eq ▸ hi)⟩
  · exact absurd h hs

end Sys2Proof
end

