-- ==== Sys2Proof/Laws/Encode.lean ====
section
/-! SUPPORT. SCATTER and ENCODE: every element, for every legal `DATA_POS` (41_bit_scatter.md, 44_hamming_21_16_encoder.md). -/

namespace Sys2Proof.Machine

/-- Writing table entries in any order: each written position holds its bit, every other what it held. -/
theorem foldl_writeBit_pos (t : DataPos) (f : Nat → Bool) {order : List Nat} (hn : order.Nodup)
    (h16 : ∀ i ∈ order, i < 16) (v : Vec21) :
    (∀ i ∈ order, (order.foldl (fun w i => writeBit w (t.pos i) (f i)) v).getLsbD (t.pos i) = f i) ∧
    (∀ p, (∀ i ∈ order, p ≠ t.pos i) →
      (order.foldl (fun w i => writeBit w (t.pos i) (f i)) v).getLsbD p = v.getLsbD p) := by
  induction order generalizing v with
  | nil => simp
  | cons k order ih =>
    obtain ⟨hk, hn⟩ := List.nodup_cons.1 hn
    have h16' : ∀ i ∈ order, i < 16 := fun i hi => h16 i (by simp [hi])
    have hk16 := h16 k (by simp)
    obtain ⟨ih1, ih2⟩ := ih hn h16' (writeBit v (t.pos k) (f k))
    refine ⟨fun i hi => ?_, fun p hp => ?_⟩
    · rcases List.mem_cons.1 hi with rfl | hi
      · rw [List.foldl_cons, ih2 _ fun j hj h => hk (t.pos_injective hk16 (h16' j hj) h ▸ hj),
          writeBit_getLsbD, if_pos ⟨rfl, t.pos_lt hk16⟩]
      · exact ih1 i hi
    · rw [List.foldl_cons, ih2 _ fun j hj => hp j (by simp [hj]), writeBit_getLsbD,
        if_neg fun h => hp k (by simp) h.1]

/-- Data bit `15 - i` is at `DATA_POS[i]`. -/
theorem scatter_getLsbD_pos (t : DataPos) (d : In16) {i : Nat} (hi : i < 16) :
    (scatter t d).getLsbD (t.pos i) = d.getLsbD (15 - i) :=
  (foldl_writeBit_pos t (fun i => d.getLsbD (15 - i)) (List.nodup_range (n := 16)) (by simp) 0#21).1 i
    (by simpa using hi)

/-- Every other position is 0. -/
theorem scatter_getLsbD_other (t : DataPos) (d : In16) {p : Nat} (hp : ∀ i < 16, p ≠ t.pos i) :
    (scatter t d).getLsbD p = false :=
  ((foldl_writeBit_pos t (fun i => d.getLsbD (15 - i)) (List.nodup_range (n := 16)) (by simp) 0#21).2 p
    fun i hi => hp i (by simpa using hi)).trans (by simp)

/-- The parity slots are 0. -/
theorem scatter_getLsbD_slot (t : DataPos) (d : In16) {j : Nat} (hj : j < 5) :
    (scatter t d).getLsbD (2 ^ j - 1) = false :=
  scatter_getLsbD_other t d fun _ hi h => t.pos_not_slot hi (h ▸ slot_mem j hj)

theorem scatter_xor (t : DataPos) (a b : In16) : scatter t (a ^^^ b) = scatter t a ^^^ scatter t b := by
  apply vec_ext
  intro p hp
  rw [BitVec.getLsbD_xor]
  by_cases hs : p ∈ [0, 1, 3, 7, 15]
  · obtain ⟨j, hj, rfl⟩ := slot_of_mem p hs
    simp only [scatter_getLsbD_slot t _ hj, Bool.xor_false]
  · obtain ⟨i, hi, rfl⟩ := t.exists_pos hp hs
    simp only [scatter_getLsbD_pos t _ hi, BitVec.getLsbD_xor]

/-- The codeword is the filled vector: GATHER is the identity on the numbering (R62, R120). -/
theorem encode_eq (t : DataPos) (d : In16) : encode t d = parityFill (scatter t d) := gather_eq _

theorem encode_getLsbD_pos (t : DataPos) (d : In16) {i : Nat} (hi : i < 16) :
    (encode t d).getLsbD (t.pos i) = d.getLsbD (15 - i) := by
  rw [encode_eq, parityFill_getLsbD_data (t.pos_not_slot hi), scatter_getLsbD_pos t d hi]

theorem encode_getLsbD_slot (t : DataPos) (d : In16) {j : Nat} (hj : j < 5) :
    (encode t d).getLsbD (2 ^ j - 1) = xorOver (dataSet j) (encode t d).getLsbD := by
  rw [encode_eq, parityFill_getLsbD_slot hj, scatter_getLsbD_slot t d hj, Bool.xor_false]
  exact (xorOver_dataSet_of_eq hj fun p hp => parityFill_getLsbD_data hp _).symm

end Sys2Proof.Machine
end

