-- ==== Sys2Proof/Laws/State.lean ====
section
/-! SUPPORT. Each field of the state after each update, by unfolding the update once. -/

namespace Sys2Proof.Machine.State

variable (s : State)

/-! driveTop -/

@[simp] theorem driveTop_dataPos (d : In16) : (s.driveTop d).dataPos = s.dataPos := rfl
@[simp] theorem driveTop_dataIn (d : In16) : (s.driveTop d).dataIn = some d := rfl
@[simp] theorem driveTop_scatterIn (d : In16) : (s.driveTop d).scatterIn = s.scatterIn := rfl
@[simp] theorem driveTop_fillIn (d : In16) : (s.driveTop d).fillIn = s.fillIn := rfl
@[simp] theorem driveTop_checkIn (d : In16) : (s.driveTop d).checkIn = s.checkIn := rfl
@[simp] theorem driveTop_gatherIn (d : In16) : (s.driveTop d).gatherIn = s.gatherIn := rfl
@[simp] theorem driveTop_regV (d : In16) : (s.driveTop d).regV = s.regV := rfl
@[simp] theorem driveTop_regC (d : In16) : (s.driveTop d).regC = s.regC := rfl
@[simp] theorem driveTop_regS (d : In16) : (s.driveTop d).regS = s.regS := rfl
@[simp] theorem driveTop_program (d : In16) : (s.driveTop d).program = s.program := rfl
@[simp] theorem driveTop_line (d : In16) : (s.driveTop d).line = s.line := rfl

/-! driveScatter -/

@[simp] theorem driveScatter_dataPos (d : In16) : (s.driveScatter d).dataPos = s.dataPos := rfl
@[simp] theorem driveScatter_dataIn (d : In16) : (s.driveScatter d).dataIn = s.dataIn := rfl
@[simp] theorem driveScatter_scatterIn (d : In16) : (s.driveScatter d).scatterIn = some d := rfl
@[simp] theorem driveScatter_fillIn (d : In16) : (s.driveScatter d).fillIn = s.fillIn := rfl
@[simp] theorem driveScatter_checkIn (d : In16) : (s.driveScatter d).checkIn = s.checkIn := rfl
@[simp] theorem driveScatter_gatherIn (d : In16) : (s.driveScatter d).gatherIn = s.gatherIn := rfl
@[simp] theorem driveScatter_regV (d : In16) : (s.driveScatter d).regV = s.regV := rfl
@[simp] theorem driveScatter_regC (d : In16) : (s.driveScatter d).regC = s.regC := rfl
@[simp] theorem driveScatter_regS (d : In16) : (s.driveScatter d).regS = s.regS := rfl
@[simp] theorem driveScatter_program (d : In16) : (s.driveScatter d).program = s.program := rfl
@[simp] theorem driveScatter_line (d : In16) : (s.driveScatter d).line = s.line := rfl

/-! driveFill -/

@[simp] theorem driveFill_dataPos (v : Vec21) : (s.driveFill v).dataPos = s.dataPos := rfl
@[simp] theorem driveFill_dataIn (v : Vec21) : (s.driveFill v).dataIn = s.dataIn := rfl
@[simp] theorem driveFill_scatterIn (v : Vec21) : (s.driveFill v).scatterIn = s.scatterIn := rfl
@[simp] theorem driveFill_fillIn (v : Vec21) : (s.driveFill v).fillIn = some v := rfl
@[simp] theorem driveFill_checkIn (v : Vec21) : (s.driveFill v).checkIn = s.checkIn := rfl
@[simp] theorem driveFill_gatherIn (v : Vec21) : (s.driveFill v).gatherIn = s.gatherIn := rfl
@[simp] theorem driveFill_regV (v : Vec21) : (s.driveFill v).regV = s.regV := rfl
@[simp] theorem driveFill_regC (v : Vec21) : (s.driveFill v).regC = s.regC := rfl
@[simp] theorem driveFill_regS (v : Vec21) : (s.driveFill v).regS = s.regS := rfl
@[simp] theorem driveFill_program (v : Vec21) : (s.driveFill v).program = s.program := rfl
@[simp] theorem driveFill_line (v : Vec21) : (s.driveFill v).line = s.line := rfl

/-! driveCheck -/

@[simp] theorem driveCheck_dataPos (v : Vec21) : (s.driveCheck v).dataPos = s.dataPos := rfl
@[simp] theorem driveCheck_dataIn (v : Vec21) : (s.driveCheck v).dataIn = s.dataIn := rfl
@[simp] theorem driveCheck_scatterIn (v : Vec21) : (s.driveCheck v).scatterIn = s.scatterIn := rfl
@[simp] theorem driveCheck_fillIn (v : Vec21) : (s.driveCheck v).fillIn = s.fillIn := rfl
@[simp] theorem driveCheck_checkIn (v : Vec21) : (s.driveCheck v).checkIn = some v := rfl
@[simp] theorem driveCheck_gatherIn (v : Vec21) : (s.driveCheck v).gatherIn = s.gatherIn := rfl
@[simp] theorem driveCheck_regV (v : Vec21) : (s.driveCheck v).regV = s.regV := rfl
@[simp] theorem driveCheck_regC (v : Vec21) : (s.driveCheck v).regC = s.regC := rfl
@[simp] theorem driveCheck_regS (v : Vec21) : (s.driveCheck v).regS = s.regS := rfl
@[simp] theorem driveCheck_program (v : Vec21) : (s.driveCheck v).program = s.program := rfl
@[simp] theorem driveCheck_line (v : Vec21) : (s.driveCheck v).line = s.line := rfl

/-! driveGather -/

@[simp] theorem driveGather_dataPos (v : Vec21) : (s.driveGather v).dataPos = s.dataPos := rfl
@[simp] theorem driveGather_dataIn (v : Vec21) : (s.driveGather v).dataIn = s.dataIn := rfl
@[simp] theorem driveGather_scatterIn (v : Vec21) : (s.driveGather v).scatterIn = s.scatterIn := rfl
@[simp] theorem driveGather_fillIn (v : Vec21) : (s.driveGather v).fillIn = s.fillIn := rfl
@[simp] theorem driveGather_checkIn (v : Vec21) : (s.driveGather v).checkIn = s.checkIn := rfl
@[simp] theorem driveGather_gatherIn (v : Vec21) : (s.driveGather v).gatherIn = some v := rfl
@[simp] theorem driveGather_regV (v : Vec21) : (s.driveGather v).regV = s.regV := rfl
@[simp] theorem driveGather_regC (v : Vec21) : (s.driveGather v).regC = s.regC := rfl
@[simp] theorem driveGather_regS (v : Vec21) : (s.driveGather v).regS = s.regS := rfl
@[simp] theorem driveGather_program (v : Vec21) : (s.driveGather v).program = s.program := rfl
@[simp] theorem driveGather_line (v : Vec21) : (s.driveGather v).line = s.line := rfl

/-! writeV -/

@[simp] theorem writeV_dataPos (v : Vec21) : (s.writeV v).dataPos = s.dataPos := rfl
@[simp] theorem writeV_dataIn (v : Vec21) : (s.writeV v).dataIn = s.dataIn := rfl
@[simp] theorem writeV_scatterIn (v : Vec21) : (s.writeV v).scatterIn = s.scatterIn := rfl
@[simp] theorem writeV_fillIn (v : Vec21) : (s.writeV v).fillIn = s.fillIn := rfl
@[simp] theorem writeV_checkIn (v : Vec21) : (s.writeV v).checkIn = s.checkIn := rfl
@[simp] theorem writeV_gatherIn (v : Vec21) : (s.writeV v).gatherIn = s.gatherIn := rfl
@[simp] theorem writeV_regV (v : Vec21) : (s.writeV v).regV = some v := rfl
@[simp] theorem writeV_regC (v : Vec21) : (s.writeV v).regC = s.regC := rfl
@[simp] theorem writeV_regS (v : Vec21) : (s.writeV v).regS = s.regS := rfl
@[simp] theorem writeV_program (v : Vec21) : (s.writeV v).program = s.program := rfl
@[simp] theorem writeV_line (v : Vec21) : (s.writeV v).line = s.line := rfl

/-! writeC -/

@[simp] theorem writeC_dataPos (c : Code21) : (s.writeC c).dataPos = s.dataPos := rfl
@[simp] theorem writeC_dataIn (c : Code21) : (s.writeC c).dataIn = s.dataIn := rfl
@[simp] theorem writeC_scatterIn (c : Code21) : (s.writeC c).scatterIn = s.scatterIn := rfl
@[simp] theorem writeC_fillIn (c : Code21) : (s.writeC c).fillIn = s.fillIn := rfl
@[simp] theorem writeC_checkIn (c : Code21) : (s.writeC c).checkIn = s.checkIn := rfl
@[simp] theorem writeC_gatherIn (c : Code21) : (s.writeC c).gatherIn = s.gatherIn := rfl
@[simp] theorem writeC_regV (c : Code21) : (s.writeC c).regV = s.regV := rfl
@[simp] theorem writeC_regC (c : Code21) : (s.writeC c).regC = some c := rfl
@[simp] theorem writeC_regS (c : Code21) : (s.writeC c).regS = s.regS := rfl
@[simp] theorem writeC_program (c : Code21) : (s.writeC c).program = s.program := rfl
@[simp] theorem writeC_line (c : Code21) : (s.writeC c).line = s.line := rfl

/-! writeS -/

@[simp] theorem writeS_dataPos (x : Syn5) : (s.writeS x).dataPos = s.dataPos := rfl
@[simp] theorem writeS_dataIn (x : Syn5) : (s.writeS x).dataIn = s.dataIn := rfl
@[simp] theorem writeS_scatterIn (x : Syn5) : (s.writeS x).scatterIn = s.scatterIn := rfl
@[simp] theorem writeS_fillIn (x : Syn5) : (s.writeS x).fillIn = s.fillIn := rfl
@[simp] theorem writeS_checkIn (x : Syn5) : (s.writeS x).checkIn = s.checkIn := rfl
@[simp] theorem writeS_gatherIn (x : Syn5) : (s.writeS x).gatherIn = s.gatherIn := rfl
@[simp] theorem writeS_regV (x : Syn5) : (s.writeS x).regV = s.regV := rfl
@[simp] theorem writeS_regC (x : Syn5) : (s.writeS x).regC = s.regC := rfl
@[simp] theorem writeS_regS (x : Syn5) : (s.writeS x).regS = some x := rfl
@[simp] theorem writeS_program (x : Syn5) : (s.writeS x).program = s.program := rfl
@[simp] theorem writeS_line (x : Syn5) : (s.writeS x).line = s.line := rfl

/-! advance -/

@[simp] theorem advance_dataPos : s.advance.dataPos = s.dataPos := rfl
@[simp] theorem advance_dataIn : s.advance.dataIn = s.dataIn := rfl
@[simp] theorem advance_scatterIn : s.advance.scatterIn = s.scatterIn := rfl
@[simp] theorem advance_fillIn : s.advance.fillIn = s.fillIn := rfl
@[simp] theorem advance_checkIn : s.advance.checkIn = s.checkIn := rfl
@[simp] theorem advance_gatherIn : s.advance.gatherIn = s.gatherIn := rfl
@[simp] theorem advance_regV : s.advance.regV = s.regV := rfl
@[simp] theorem advance_regC : s.advance.regC = s.regC := rfl
@[simp] theorem advance_regS : s.advance.regS = s.regS := rfl
@[simp] theorem advance_program : s.advance.program = s.program := rfl
@[simp] theorem advance_line : s.advance.line = s.line + 1 := rfl

/-! start -/

@[simp] theorem start_dataPos (p : List Line) : (s.start p).dataPos = s.dataPos := rfl
@[simp] theorem start_dataIn (p : List Line) : (s.start p).dataIn = s.dataIn := rfl
@[simp] theorem start_scatterIn (p : List Line) : (s.start p).scatterIn = s.scatterIn := rfl
@[simp] theorem start_fillIn (p : List Line) : (s.start p).fillIn = s.fillIn := rfl
@[simp] theorem start_checkIn (p : List Line) : (s.start p).checkIn = s.checkIn := rfl
@[simp] theorem start_gatherIn (p : List Line) : (s.start p).gatherIn = s.gatherIn := rfl
@[simp] theorem start_regV (p : List Line) : (s.start p).regV = none := rfl
@[simp] theorem start_regC (p : List Line) : (s.start p).regC = none := rfl
@[simp] theorem start_regS (p : List Line) : (s.start p).regS = none := rfl
@[simp] theorem start_program (p : List Line) : (s.start p).program = p := rfl
@[simp] theorem start_line (p : List Line) : (s.start p).line = 0 := rfl

/-! placeLine -/

@[simp] theorem placeLine_dataPos (l : Line) : (s.placeLine l).dataPos = s.dataPos := rfl
@[simp] theorem placeLine_dataIn (l : Line) : (s.placeLine l).dataIn = s.dataIn := rfl
@[simp] theorem placeLine_scatterIn (l : Line) : (s.placeLine l).scatterIn = s.scatterIn := rfl
@[simp] theorem placeLine_fillIn (l : Line) : (s.placeLine l).fillIn = s.fillIn := rfl
@[simp] theorem placeLine_checkIn (l : Line) : (s.placeLine l).checkIn = s.checkIn := rfl
@[simp] theorem placeLine_gatherIn (l : Line) : (s.placeLine l).gatherIn = s.gatherIn := rfl
@[simp] theorem placeLine_regV (l : Line) : (s.placeLine l).regV = s.regV := rfl
@[simp] theorem placeLine_regC (l : Line) : (s.placeLine l).regC = s.regC := rfl
@[simp] theorem placeLine_regS (l : Line) : (s.placeLine l).regS = s.regS := rfl
@[simp] theorem placeLine_line (l : Line) : (s.placeLine l).line = s.line := rfl

/-- The placed line is the next one fetched. -/
@[simp] theorem placeLine_fetch (l : Line) : (s.placeLine l).fetch = some l := by
  have h : (s.program.take s.line ++ List.replicate (s.line - s.program.length) l).length = s.line := by
    simp; omega
  show (s.program.take s.line ++ List.replicate (s.line - s.program.length) l ++
    l :: s.program.drop (s.line + 1))[s.line]? = some l
  rw [List.getElem?_append_right (by omega), h]
  simp

end Sys2Proof.Machine.State
end

