-- ==== Sys2Proof/Laws/Step.lean ====
section
/-! SUPPORT. What an operand read, an instruction and a step can do, said once; and the machine's runs. -/

namespace Sys2Proof.Machine

theorem withVec_eq_next {v : Option Vec21} {k : Vec21 → Host.Outcome State Fault Refusal} {t : State} :
    withVec v k = .next t ↔ ∃ x, v = some x ∧ k x = .next t := by
  cases v <;> simp [withVec]

/-- FILL, CHECK and GATHER on an operand that has a value: the port is driven with it and the output written. -/
theorem exec_parityFill_of_value {x : VecOperand} {s : State} {v : Vec21} (h : vecValue x s = some v) :
    exec (.parityFill x) s = .next ((s.driveFill v).writeV (parityFill v)) := by
  rw [exec, execParityFill, h, withVec]

theorem exec_check_of_value {x : CheckOperand} {s : State} {v : Vec21} (h : checkValue x s = some v) :
    exec (.check x) s = .next ((s.driveCheck v).writeS (checkSums v)) := by
  rw [exec, execCheck, h, withVec]

theorem exec_gather_of_value {x : VecOperand} {s : State} {v : Vec21} (h : vecValue x s = some v) :
    exec (.gather x) s = .next ((s.driveGather v).writeC (gather v)) := by
  rw [exec, execGather, h, withVec]

/-- A port value written as the integer it is drives the port with itself. -/
@[simp] theorem in16_toNat (d : In16) : in16 d.toNat = d := by simp [in16]

@[simp] theorem vec21_toNat (v : Vec21) : vec21 v.toNat = v := by simp [vec21]

/-- An instruction that answers a next state did one of five things: it drove its port with its operand and wrote
the port's output in its bench register (R63, R68). -/
theorem exec_next_cases {i : Instr} {s t : State} (h : exec i s = .next t) :
    (∃ n, i = .encode n ∧ t = (s.driveTop (in16 n)).writeC (encode s.dataPos (in16 n))) ∨
    (∃ n, i = .scatter n ∧ t = (s.driveScatter (in16 n)).writeV (scatter s.dataPos (in16 n))) ∨
    (∃ x v, i = .parityFill x ∧ vecValue x s = some v ∧ t = (s.driveFill v).writeV (parityFill v)) ∨
    (∃ x v, i = .check x ∧ checkValue x s = some v ∧ t = (s.driveCheck v).writeS (checkSums v)) ∨
    (∃ x v, i = .gather x ∧ vecValue x s = some v ∧ t = (s.driveGather v).writeC (gather v)) := by
  cases i with
  | encode n => exact .inl ⟨n, rfl, (Host.Outcome.next.inj h).symm⟩
  | scatter n => exact .inr (.inl ⟨n, rfl, (Host.Outcome.next.inj h).symm⟩)
  | parityFill x =>
    obtain ⟨v, hv, h⟩ := withVec_eq_next.1 h
    exact .inr (.inr (.inl ⟨x, v, rfl, hv, (Host.Outcome.next.inj h).symm⟩))
  | check x =>
    obtain ⟨v, hv, h⟩ := withVec_eq_next.1 h
    exact .inr (.inr (.inr (.inl ⟨x, v, rfl, hv, (Host.Outcome.next.inj h).symm⟩)))
  | gather x =>
    obtain ⟨v, hv, h⟩ := withVec_eq_next.1 h
    exact .inr (.inr (.inr (.inr ⟨x, v, rfl, hv, (Host.Outcome.next.inj h).symm⟩)))

/-- A step that answers a next state fetched a line of the grammar, ran it and advanced one line (D19). -/
theorem step_next_cases {s t : State} (h : step s = .next t) :
    ∃ l i u, s.fetch = some l ∧ decodeLine l = .ok i ∧ exec i s = .next u ∧ t = u.advance := by
  unfold step at h
  split at h
  · cases h
  · next l hl =>
    split at h
    · cases h
    · next i hi =>
      split at h
      · next u hu => exact ⟨l, i, u, hl, hi, hu, (Host.Outcome.next.inj h).symm⟩
      · cases h
      · cases h

/-- No instruction is refused: the block has no refusal of its own (R160). -/
theorem exec_not_refused (i : Instr) (s : State) (r : Refusal) : exec i s ≠ .refused r := by
  have hw : ∀ (v : Option Vec21) (f : Vec21 → State), withVec v (fun x => .next (f x)) ≠ .refused r := by
    intro v f; cases v <;> simp [withVec]
  cases i with
  | encode n => simp [exec, execEncode]
  | scatter n => simp [exec, execScatter]
  | parityFill x => exact hw _ _
  | check x => exact hw _ _
  | gather x => exact hw _ _

/-- A run of `k + 1` steps that answers a next state is one step and a run of `k`. -/
theorem run_succ_next {M : Host.Core} {k : Nat} {s t : M.State} :
    Host.Core.run M (k + 1) s = .next t ↔ ∃ u, M.step s = .next u ∧ Host.Core.run M k u = .next t := by
  simp only [Host.Core.run]
  cases M.step s <;> simp

theorem run_succ_fault {M : Host.Core} {k : Nat} {s : M.State} {f : M.Fault} :
    Host.Core.run M (k + 1) s = .fault f ↔
      M.step s = .fault f ∨ ∃ u, M.step s = .next u ∧ Host.Core.run M k u = .fault f := by
  simp only [Host.Core.run]
  cases M.step s <;> simp

theorem run_succ_refused {M : Host.Core} {k : Nat} {s : M.State} {r : M.Refusal} :
    Host.Core.run M (k + 1) s = .refused r ↔
      M.step s = .refused r ∨ ∃ u, M.step s = .next u ∧ Host.Core.run M k u = .refused r := by
  simp only [Host.Core.run]
  cases M.step s <;> simp

end Sys2Proof.Machine
end

