-- ==== Sys2Proof/Laws/Encoding.lean ====
section
/-! SUPPORT. The pairs that encode a program (30_encoding.md R68): a step that runs has one. -/

namespace Sys2Proof.Machine

/-- A step that runs has the pair of the instruction it ran. -/
theorem nextPair_eq {s : State} {l : Line} {i : Instr} (hl : s.fetch = some l) (hi : decodeLine l = .ok i) :
    s.nextPair = encodePair i s := by
  rw [State.nextPair, hl]
  simp only [hi]

/-- The pairs of a run that makes a first step: that step's pair, then those of the rest. -/
theorem encodePairs_succ {k : Nat} {s t : State} (h : step s = .next t) :
    encodePairs (k + 1) s = s.nextPair.toList ++ encodePairs k t := by
  rw [encodePairs, h]

/-- An instruction that answers a next state has an input word. -/
theorem encodePair_of_next {i : Instr} {s t : State} (h : exec i s = .next t) :
    ∃ w, inputWord i s = some w ∧ encodePair i s = some ⟨i.op, w⟩ := by
  obtain ⟨n, rfl, rfl⟩ | ⟨n, rfl, rfl⟩ | ⟨x, v, rfl, hv, rfl⟩ | ⟨x, v, rfl, hv, rfl⟩ | ⟨x, v, rfl, hv, rfl⟩ :=
    exec_next_cases h
  · exact ⟨_, rfl, rfl⟩
  · exact ⟨_, rfl, rfl⟩
  all_goals exact ⟨v.toNat, by simp [inputWord, hv], by simp [encodePair, inputWord, hv]⟩

end Sys2Proof.Machine
end

