-- ==== Sys2Proof/Laws/PerInstr.lean ====
section
/-! SUPPORT. Facts about an instruction as syntax, one lemma per constructor. -/

namespace Sys2Proof.Laws.EncodedOp

/-- The encoded line drives the instruction's own operation, and its input is a word or a register the grammar has
(30_encoding.md R68). -/
def Statement (i : Instr) : Prop :=
  (encodeLine i).op = i.op ∧ (encodeLine i).input ≠ .undriven ∧ (encodeLine i).input ≠ .regS

theorem encode (d : Nat) : Statement (.encode d) := ⟨rfl, nofun, nofun⟩

theorem scatter (d : Nat) : Statement (.scatter d) := ⟨rfl, nofun, nofun⟩

theorem parityFill (x : VecOperand) : Statement (.parityFill x) := by
  cases x <;> exact ⟨rfl, nofun, nofun⟩

theorem check (x : CheckOperand) : Statement (.check x) := by
  cases x <;> exact ⟨rfl, nofun, nofun⟩

theorem gather (x : VecOperand) : Statement (.gather x) := by
  cases x <;> exact ⟨rfl, nofun, nofun⟩

end Sys2Proof.Laws.EncodedOp
end

