-- ==== Sys2Proof/Laws/Text.lean ====
section
/-! SUPPORT. The bench text (30_encoding.md R68): hexadecimal digits read back, and a mnemonic and one operand with
a space between them read as a line, and lines joined by line feeds read as the program of those lines. -/

namespace Sys2Proof

theorem hexDigit_hexChar : ∀ k < 16, hexDigit (hexChar k) = some k := by decide

theorem hexChar_in_word : ∀ k < 16, isBlank (hexChar k) = false ∧ (hexChar k != 0x3B#8) = true := by decide

theorem hexValue_append (a : Nat) (l r : List Byte) :
    hexValue a (l ++ r) = (hexValue a l).bind fun b => hexValue b r := by
  induction l generalizing a with
  | nil => rfl
  | cons x l ih =>
    simp only [List.cons_append, hexValue]
    cases hexDigit x <;> simp [ih]

/-- Reading the `k` digits of `n` gives `n` modulo `16^k`. -/
theorem hexValue_hexDigits (k n a : Nat) : hexValue a (hexDigits k n) = some (a * 16 ^ k + n % 16 ^ k) := by
  induction k generalizing n with
  | zero => simp [hexDigits, hexValue, Nat.mod_one]
  | succ k ih =>
    have hd : n % 16 ^ (k + 1) = n % 16 + 16 * (n / 16 % 16 ^ k) := by rw [pow_succ', Nat.mod_mul]
    rw [hexDigits, hexValue_append, ih, hd, pow_succ]
    simp only [Option.bind_some, hexValue, hexDigit_hexChar _ (Nat.mod_lt n (by decide : 0 < 16))]
    congr 1
    ring

theorem hexDigits_in_word (k n : Nat) : ∀ b ∈ hexDigits k n, isBlank b = false ∧ (b != 0x3B#8) = true := by
  induction k generalizing n with
  | zero => simp [hexDigits]
  | succ k ih =>
    intro b hb
    rw [hexDigits, List.mem_append] at hb
    rcases hb with hb | hb
    · exact ih _ b hb
    · rw [List.mem_singleton.1 hb]
      exact hexChar_in_word _ (Nat.mod_lt n (by decide))

theorem tokens_single {l : List Byte} (h : l ≠ []) (hp : ∀ b ∈ l, isBlank b = false) : tokens l = [l] := by
  induction l with
  | nil => exact absurd rfl h
  | cons a l ih =>
    cases l with
    | nil => simp [tokens, hp a]
    | cons b l =>
      rw [tokens, if_neg (by simp [hp a (by simp)]), if_neg (by simp [hp b (by simp)]),
        ih (by simp) fun c hc => hp c (by simp [hc])]

theorem tokens_append {m : List Byte} (l : List Byte) (h : m ≠ []) (hp : ∀ b ∈ m, isBlank b = false) :
    tokens (m ++ 0x20#8 :: l) = m :: tokens l := by
  induction m with
  | nil => exact absurd rfl h
  | cons a m ih =>
    cases m with
    | nil => simp [tokens, hp a, show isBlank 0x20#8 = true from rfl]
    | cons b m =>
      have ih := ih (by simp) fun c hc => hp c (by simp [hc])
      simp only [List.cons_append] at ih ⊢
      rw [tokens, if_neg (by simp [hp a (by simp)]), if_neg (by simp [hp b (by simp)]), ih]

theorem dropComment_eq {l : List Byte} (h : ∀ b ∈ l, (b != 0x3B#8) = true) : dropComment l = l := by
  induction l with
  | nil => rfl
  | cons a l ih =>
    rw [dropComment, List.takeWhile_cons, if_pos (h a (by simp))]
    exact congrArg _ (ih fun b hb => h b (by simp [hb]))

theorem mnemonic_in_word (op : Op) : op.mnemonic ≠ [] ∧
    (∀ b ∈ op.mnemonic, isBlank b = false ∧ (b != 0x3B#8) = true) ∧ parseOp op.mnemonic = .ok op := by
  cases op <;> decide

/-- A mnemonic, a space and an operand's word read as the line of the two. -/
theorem parseLine_mnemonic_input (op : Op) {x : List Byte} {input : LineInput} (hx : x ≠ [])
    (hp : ∀ b ∈ x, isBlank b = false ∧ (b != 0x3B#8) = true) (hi : parseInput x = .ok input) :
    parseLine (op.mnemonic ++ ascii [' '] ++ x) = .ok (some ⟨op, input⟩) := by
  obtain ⟨h1, h2, h3⟩ := mnemonic_in_word op
  have hs : ascii [' '] = [0x20#8] := rfl
  rw [hs, parseLine, dropComment_eq, List.append_assoc, List.singleton_append,
    tokens_append _ h1 fun b hb => (h2 b hb).1, tokens_single hx fun b hb => (hp b hb).1]
  · simp [parseTokens, h3, hi]
  · intro b hb
    simp only [List.mem_append, List.mem_singleton] at hb
    rcases hb with (hb | rfl) | hb
    · exact (h2 b hb).2
    · decide
    · exact (hp b hb).2

/-- `0x` and the `k + 1` digits of a value they can hold read as that value. -/
theorem parseInput_word {k n : Nat} (hn : n < 16 ^ (k + 1)) :
    parseInput (ascii ['0', 'x'] ++ hexDigits (k + 1) n) = .ok (.word n) := by
  have hne : hexDigits (k + 1) n ≠ [] := by simp [hexDigits]
  have hv := hexValue_hexDigits (k + 1) n 0
  rw [Nat.mod_eq_of_lt hn] at hv
  obtain ⟨d, ds, hd⟩ := List.exists_cons_of_ne_nil hne
  rw [hd] at hv ⊢
  have ha : ascii ['0', 'x'] ++ d :: ds = 0x30#8 :: 0x78#8 :: d :: ds := rfl
  have hn1 : ∀ c : Char, ascii [c] ≠ 0x30#8 :: 0x78#8 :: d :: ds := by intro c; simp [ascii]
  rw [ha, parseInput, if_neg (hn1 'V').symm, if_neg (hn1 'C').symm, if_neg (hn1 'S').symm]
  simp [hv]

theorem literal_in_word (k n : Nat) :
    ∀ b ∈ ascii ['0', 'x'] ++ hexDigits k n, isBlank b = false ∧ (b != 0x3B#8) = true := by
  intro b hb
  rcases List.mem_append.1 hb with hb | hb
  · clear * - hb
    revert b
    decide
  · exact hexDigits_in_word k n b hb

/-- A line feed after a line without one splits it off. -/
theorem splitLines_append (rest : List Byte) {l : List Byte} (h : 0x0A#8 ∉ l) :
    splitLines (l ++ 0x0A#8 :: rest) = l :: splitLines rest := by
  induction l with
  | nil => simp [splitLines]
  | cons b l ih =>
    obtain ⟨hb, hl⟩ : 0x0A#8 ≠ b ∧ 0x0A#8 ∉ l := by simpa using h
    rw [List.cons_append, splitLines, if_neg (Ne.symm hb), ih hl]

theorem splitLines_single {l : List Byte} (h : 0x0A#8 ∉ l) : splitLines l = [l] := by
  induction l with
  | nil => rfl
  | cons b l ih =>
    obtain ⟨hb, hl⟩ : 0x0A#8 ≠ b ∧ 0x0A#8 ∉ l := by simpa using h
    rw [splitLines, if_neg (Ne.symm hb), ih hl]

/-- Joining lines by line feeds and splitting gives the lines back. -/
theorem splitLines_intercalate {ls : List (List Byte)} (hne : ls ≠ []) (h : ∀ l ∈ ls, 0x0A#8 ∉ l) :
    splitLines (List.intercalate [0x0A#8] ls) = ls := by
  induction ls with
  | nil => exact absurd rfl hne
  | cons l ls ih =>
    cases ls with
    | nil => simpa using splitLines_single (h l (by simp))
    | cons l' ls =>
      rw [List.intercalate_cons_cons, List.append_assoc, List.singleton_append,
        splitLines_append _ (h l (by simp)), ih (by simp) fun x hx => h x (by simp [hx])]

/-- What reading lines can do, for each first line. -/
theorem parseLines_blank {t : List Byte} (ts : List (List Byte)) (h : parseLine t = .ok none) :
    parseLines (t :: ts) = parseLines ts := by rw [parseLines, h]

theorem parseLines_line {t : List Byte} {l : Line} {i : Instr} (ts : List (List Byte))
    (h : parseLine t = .ok (some l)) (hi : decodeLine l = .ok i) :
    parseLines (t :: ts) = (parseLines ts).map (l :: ·) := by
  rw [parseLines, h]
  simp only [hi]
  cases parseLines ts <;> rfl

theorem parseLines_bad {t : List Byte} {r : Reject} (ts : List (List Byte))
    (h : parseLine t = .error r ∨ ∃ l, parseLine t = .ok (some l) ∧ decodeLine l = .error r) :
    parseLines (t :: ts) = .error r := by
  rcases h with h | ⟨l, h, hl⟩
  · rw [parseLines, h]
  · rw [parseLines, h]
    simp only [hl]

end Sys2Proof
end

