-- ==== Sys2Proof/Tests/Slice0.lean ====
section
/-! SUPPORT. The model's own tests. Expected values are the spec's: 95_test_vectors.md, the encodings of
30_encoding.md and the examples of the rules; the source stands at each test. Witnesses for the statements'
hypotheses follow. -/

set_option maxRecDepth 20000

namespace Sys2Proof.Tests

open Sys2Proof.Machine

/-! ### Small states -/

/-- The machine with one line to run. -/
def benchAt (l : Line) : State := { State.reset with program := [l] }

/-- A next state's bench registers. -/
def regs (o : Host.Outcome State Fault Refusal) : Option (Option Vec21 × Option Code21 × Option Syn5) :=
  match o with
  | .next t => some (t.regV, t.regC, t.regS)
  | .fault _ => none
  | .refused _ => none

/-- Why a step stopped, if it did. -/
def stopped (o : Host.Outcome State Fault Refusal) : Option (Fault ⊕ Refusal) :=
  match o with
  | .next _ => none
  | .fault f => some (.inl f)
  | .refused r => some (.inr r)

/-- The ascending table, the other order 95_test_vectors.md names. -/
def ascending : DataPos := ⟨[2, 4, 5, 6, 8, 9, 10, 11, 12, 13, 14, 16, 17, 18, 19, 20], by decide⟩

/-! ### WellFormed: each check refuses an ill-formed term -/

theorem test_wf_encode_literal : Instr.wf (.encode 0x10000) = false ∧ Instr.wf (.encode 0xFFFF) = true := by decide
theorem test_wf_scatter_literal : Instr.wf (.scatter 0x10000) = false ∧ Instr.wf (.scatter 0xFFFF) = true := by decide
theorem test_wf_fill_literal :
    Instr.wf (.parityFill (.imm 0x200000)) = false ∧ Instr.wf (.parityFill (.imm 0x1FFFFF)) = true := by decide
theorem test_wf_check_literal :
    Instr.wf (.check (.imm 0x200000)) = false ∧ Instr.wf (.check (.imm 0x1FFFFF)) = true := by decide
theorem test_wf_gather_literal :
    Instr.wf (.gather (.imm 0x200000)) = false ∧ Instr.wf (.gather (.imm 0x1FFFFF)) = true := by decide
theorem test_wf_table_length : dataPosLegal [20, 19, 18, 17, 16, 14, 13, 12, 11, 10, 9, 8, 6, 5, 4] = false := by decide
theorem test_wf_table_repeat :
    dataPosLegal [20, 20, 18, 17, 16, 14, 13, 12, 11, 10, 9, 8, 6, 5, 4, 2] = false := by decide
theorem test_wf_table_above_20 :
    dataPosLegal [21, 19, 18, 17, 16, 14, 13, 12, 11, 10, 9, 8, 6, 5, 4, 2] = false := by decide
theorem test_wf_table_parity_slot :
    dataPosLegal [20, 19, 18, 17, 16, 15, 13, 12, 11, 10, 9, 8, 6, 5, 4, 2] = false := by decide

/-! ### Decode: lines of 95_test_vectors.md section 3, and bare words bit by bit (R60, R62) -/

theorem test_decode_encode :
    decodeText (ascii ['E', 'N', 'C', 'O', 'D', 'E', ' ', '0', 'x', '1', '2', '3', '4']) =
      .ok (.encode 0b0001001000110100) := by decide
theorem test_decode_scatter :
    decodeText (ascii ['S', 'C', 'A', 'T', 'T', 'E', 'R', ' ', '0', 'x', 'A', 'B', 'C', 'D', ' ', ' ', ';', 'x']) =
      .ok (.scatter 0b1010101111001101) := by decide
theorem test_decode_fill :
    decodeText (ascii ['F', 'I', 'L', 'L', ' ', ' ', ' ', '0', 'x', '0', '0', '8', '0', '0', '5']) =
      .ok (.parityFill (.imm 0b000001000000000000101)) := by decide
theorem test_decode_check :
    decodeText (ascii ['C', 'H', 'E', 'C', 'K', ' ', ' ', '0', 'x', '1', '2', 'a', '3', 'a', '1']) =
      .ok (.check (.imm 0b100101010001110100001)) := by decide
theorem test_decode_gather :
    decodeText (ascii ['G', 'A', 'T', 'H', 'E', 'R', ' ', ' ', 'V']) = .ok (.gather .regV) := by decide
theorem test_decode_fill_c_refused :
    decodeText (ascii ['F', 'I', 'L', 'L', ' ', 'C']) = .error .operandNotInGrammar := by decide
theorem test_decode_wide_literal_refused :
    decodeText (ascii ['E', 'N', 'C', 'O', 'D', 'E', ' ', '0', 'x', '1', '1', '2', '3', '4']) =
      .error .literalOutOfRange := by decide
theorem test_decode_unknown_refused :
    decodeText (ascii ['D', 'E', 'C', 'O', 'D', 'E', ' ', 'C']) = .error .unknownMnemonic := by decide
theorem test_decode_operand_refused :
    decodeText (ascii ['C', 'H', 'E', 'C', 'K', ' ', '0', 'x']) = .error .malformedOperand ∧
    decodeText (ascii ['C', 'H', 'E', 'C', 'K']) = .error .malformedLine := by decide
theorem test_decode_program :
    parseProgram (ascii ['F', 'I', 'L', 'L', ' ', '0', 'x', '4', '\n', '\n', 'G', 'A', 'T', 'H', 'E', 'R', ' ', 'V']) =
      .ok [⟨.parityFill, .word 4⟩, ⟨.gather, .regV⟩] := by decide
theorem test_table_word_16 : decodeTableWord 16 0b0001001000110100 = some (.encode 0x1234) := by decide
theorem test_table_word_24 : decodeTableWord 24 0b000000101010001110100001 = some (.parityFill (.imm 0x02A3A1)) := by
  decide

/-! ### The operations: 95_test_vectors.md section 2 -/

theorem test_scatter_1234 : regs (exec (.scatter 0x1234) State.reset) = some (some 0x022320#21, none, none) := by
  decide
theorem test_scatter_wide_input :
    regs (exec (.scatter 0x11234) State.reset) = some (some 0x022320#21, none, none) := by decide
theorem test_fill_1234 :
    regs (exec (.parityFill (.imm 0x022320)) State.reset) = some (some 0x02A3A1#21, none, none) := by decide
theorem test_fill_slots_set :
    regs (exec (.parityFill (.imm 0x1FFFFF)) State.reset) = some (some 0x1F7F75#21, none, none) := by decide
theorem test_fill_trace : parityFillTrace 0x022320#21 =
    [0x022320#21, 0x022321#21, 0x022321#21, 0x022321#21, 0x0223A1#21, 0x02A3A1#21] := by decide
theorem test_check_flip_9 :
    regs (exec (.check (.imm 0x02A1A1)) State.reset) = some (none, none, some 0x0A#5) := by decide
theorem test_check_flip_20 :
    regs (exec (.check .regC) { State.reset with regC := some 0x12A3A1#21 }) =
      some (none, some 0x12A3A1#21, some 0x15#5) := by decide
theorem test_gather_top : regs (exec (.gather (.imm 0x100000)) State.reset) = some (none, some 0x100000#21, none) := by
  decide
theorem test_gather_v :
    regs (exec (.gather .regV) { State.reset with regV := some 0x02A3A1#21 }) =
      some (some 0x02A3A1#21, some 0x02A3A1#21, none) := by decide
theorem test_encode_8000 : regs (exec (.encode 0x8000) State.reset) = some (none, some 0x108009#21, none) := by
  decide
theorem test_encode_ascending :
    regs (exec (.encode 0x1234) { State.reset with dataPos := ascending }) = some (none, some 0x054441#21, none) := by
  decide

/-! ### Steps -/

theorem test_step_word : regs (step (State.reset.withFetchWord 16 0xBEEF)) = some (none, some 0x176EFE#21, none) := by
  decide
/-- P6: `CHECK V` with `V` unwritten. -/
theorem test_step_unwritten :
    stopped (step (benchAt ⟨.check, .regV⟩)) = some (.inl .unwrittenBenchRegister) := by decide
theorem test_step_undriven :
    stopped (step (benchAt ⟨.encode, .undriven⟩)) = some (.inr (.rejected .undrivenInput)) := by decide
theorem test_step_ended : stopped (step State.reset) = some (.inr .programEnded) := by decide

/-- P2: `FILL V` after `SCATTER 0xABCD` is the pair (parity, 0x153C64). -/
theorem test_pair_of_register_operand :
    encodePair (.parityFill .regV) { State.reset with regV := some 0x153C64#21 } = some ⟨.parityFill, 0x153C64⟩ := by
  decide
/-- P2's first two lines, as the pairs that stand beside them there. -/
theorem test_encoding_of_lines :
    ({ State.reset with program := [⟨.scatter, .word 0xABCD⟩, ⟨.parityFill, .regV⟩] } : State).encoding =
      [⟨.scatter, 0xABCD⟩, ⟨.parityFill, 0x153C64⟩] := by decide

/-! ### Witnesses: the hypotheses of each statement are met -/

theorem witness_IllFormedDataPos_refused :
    [20, 19, 18, 17, 16, 14, 13, 12, 11, 10, 9, 8, 6, 5, 4].length ≠ 16 ∧
    ¬ [20, 20, 18, 17, 16, 14, 13, 12, 11, 10, 9, 8, 6, 5, 4, 2].Nodup ∧
    (∃ x ∈ [21, 19, 18, 17, 16, 14, 13, 12, 11, 10, 9, 8, 6, 5, 4, 2], 20 < x) ∧
    (∃ x ∈ [20, 19, 18, 17, 16, 15, 13, 12, 11, 10, 9, 8, 6, 5, 4, 2], x ∈ [0, 1, 3, 7, 15]) := by decide
theorem witness_IllFormedDataPos_accepted :
    ascending.entries.length = 16 ∧ ascending.entries.Nodup ∧ (∀ x ∈ ascending.entries, x ≤ 20) ∧
    (∀ x ∈ ascending.entries, x ∉ [0, 1, 3, 7, 15]) := by decide
theorem witness_PositionTablesPartition :
    (0 < 16 ∧ 15 < 16) ∧ (2 < 21 ∧ 2 ∉ [0, 1, 3, 7, 15]) ∧ (20 < 21 ∧ 20 ∉ [0, 1, 3, 7, 15]) := by decide
theorem witness_Scatter :
    [15, 14, 13, 12, 11, 10, 9, 8, 7, 6, 5, 4, 3, 2, 1, 0].Perm (List.range 16) ∧ 0x10000 % 2 ^ 16 = 0x0000 ∧
    0x1FFFF % 2 ^ 16 = 0xFFFF ∧ State.reset.dataPos = DataPos.default ∧ 0x0001 % 2 ^ 16 = 0x0001 := by decide
/-- A written `V` and a written `C`: FillWritesEachCheckSum, SecondFillRestoresTheVector, CheckReportsTheSyndrome,
GatherCopiesEveryElement, RegisterOperandRunsAsItsValue. -/
theorem witness_WrittenRegisters :
    ({ State.reset with regV := some 0x008005#21, regC := some 0x1FFFFF#21 } : State).regV = some 0x008005#21 ∧
    ({ State.reset with regV := some 0x008005#21, regC := some 0x1FFFFF#21 } : State).regC = some 0x1FFFFF#21 := by
  decide
/-- An order of the five writes: FillWritesEachCheckSum, FillOrderDoesNotMatter. -/
theorem witness_FillOrder : [4, 3, 2, 1, 0].Perm (List.range 5) ∧ (4 < 5 ∧ 0 < 5 ∧ 0 ≠ 4) := by decide
theorem witness_FillMakesEveryCheckSetEven : ∀ j < 5, (0x1F7F74#21 : Vec21).getLsbD (2 ^ j - 1) = false := by decide
theorem witness_GatherOrder : (List.range 21).reverse.Perm (List.range 21) ∧ 20 < 21 := by decide
/-- The default table: ParityBitEquations, EncodeEqualsItsClosedForm, EncodeIsLinear,
SingleBitCodewordsGenerateTheCode. -/
theorem witness_DefaultTable : State.reset.dataPos = DataPos.default ∧ (0 < 16 ∧ 15 < 16) := by decide
theorem witness_EncodeDependsOnInput :
    ({ State.reset with dataPos := ascending } : State).dataPos = ascending ∧
    regs (exec (.encode 1) { State.reset with dataPos := ascending }) = some (none, some 0x108009#21, none) := by
  decide
theorem witness_CodewordsDiffer : (0x0000#16 : In16) ≠ 0xFFFF#16 := by decide
theorem witness_StagesInSequence :
    0xFFFF < 2 ^ 16 ∧
    ({ State.reset with program := [⟨.scatter, .word 0xFFFF⟩, ⟨.parityFill, .regV⟩, ⟨.gather, .regV⟩] } : State).rest =
      [⟨.scatter, .word 0xFFFF⟩, ⟨.parityFill, .regV⟩, ⟨.gather, .regV⟩] := by decide
/-- An instruction that completes, of each operation, with literal operands: CodeOutEncodesDataIn,
OperationsKeepEverythingElse, RepeatedOperationChangesNothing, ResultsIgnoreEarlierOperations. -/
theorem witness_Completes :
    (regs (exec (.encode 0) State.reset)).isSome ∧ (regs (exec (.scatter 0) State.reset)).isSome ∧
    (regs (exec (.parityFill (.imm 0)) State.reset)).isSome ∧ (regs (exec (.check (.imm 0)) State.reset)).isSome ∧
    (regs (exec (.gather (.imm 0)) State.reset)).isSome ∧
    (Instr.check (.imm 0)).input ≠ .regV ∧ (Instr.check (.imm 0)).input ≠ .regC ∧
    (Instr.check (.imm 0)).op ≠ .encode := by decide
theorem witness_StepRunsTheDecodedLine :
    (benchAt ⟨.encode, .word 0xFFFF⟩).program[(benchAt ⟨.encode, .word 0xFFFF⟩).line]? = some ⟨.encode, .word 0xFFFF⟩ ∧
    decodeLine ⟨.encode, .word 0xFFFF⟩ = .ok (.encode 0xFFFF) ∧
    (regs (exec (.encode 0xFFFF) (benchAt ⟨.encode, .word 0xFFFF⟩))).isSome ∧
    decodeLine ⟨.check, .regC⟩ = .ok (.check .regC) ∧
    stopped (exec (.check .regC) (benchAt ⟨.check, .regC⟩)) = some (.inl .unwrittenBenchRegister) := by
  decide
theorem witness_PlacedTableWordRuns :
    decodeTableWord 16 0xFFFF = some (.encode 0xFFFF) ∧
    decodeTableWord 24 0x1FFFFF = some (.parityFill (.imm 0x1FFFFF)) := by decide
theorem witness_BenchFaultsAndRefusals :
    (∀ op ∈ [Op.parityFill, Op.check, Op.gather],
      (benchAt ⟨op, .regV⟩).program[0]? = some ⟨op, .regV⟩ ∧ (benchAt ⟨op, .regV⟩).regV = none) ∧
    ((benchAt ⟨.check, .regC⟩).program[0]? = some ⟨.check, .regC⟩ ∧ (benchAt ⟨.check, .regC⟩).regC = none) ∧
    (2 ^ Op.encode.inWidth ≤ 0x10000 ∧
      (benchAt ⟨.encode, .word 0x10000⟩).program[0]? = some ⟨.encode, .word 0x10000⟩) ∧
    (2 ^ Op.gather.inWidth ≤ 0x200000 ∧
      (benchAt ⟨.gather, .word 0x200000⟩).program[0]? = some ⟨.gather, .word 0x200000⟩) ∧
    (benchAt ⟨.check, .regS⟩).program[0]? = some ⟨.check, .regS⟩ := by decide
theorem witness_UndrivenInput :
    (benchAt ⟨.gather, .undriven⟩).program[(benchAt ⟨.gather, .undriven⟩).line]? = some ⟨.gather, .undriven⟩ := by
  decide
/-- An instruction at the end of its range, and a line that decodes: LineDecodesToItsInstruction,
TextReadsBackAsItsInstruction. -/
theorem witness_WellFormed :
    Instr.wf (.encode 0xFFFF) = true ∧ Instr.wf (.gather (.imm 0x1FFFFF)) = true ∧
    decodeLine ⟨.gather, .word 0x1FFFFF⟩ = .ok (.gather (.imm 0x1FFFFF)) := by decide
/-- A text that loads: LoadStartsAnUnwrittenBench, ResetAndLoadAreSettled. -/
theorem witness_Load :
    regs (State.load (ascii ['C', 'H', 'E', 'C', 'K', ' ', 'C']) { State.reset with regC := some 0#21 }) =
      some (none, none, none) := by decide
/-- A settled state and a step of it: StepKeepsBenchSettled, RunAdvancesOneLineAStep. -/
theorem witness_StepOfASettledState :
    (benchAt ⟨.encode, .word 0⟩).Settled ∧ (regs (step (benchAt ⟨.encode, .word 0⟩))).isSome :=
  ⟨⟨nofun, nofun, nofun⟩, by decide⟩
/-- Lines that load: a blank line, a comment and an operation; and a line outside the grammar:
LoadStartsAnUnwrittenBench. -/
theorem witness_LoadLines :
    (∀ l ∈ [[], ascii [';', 'x'], ascii ['F', 'I', 'L', 'L', ' ', 'V'], ascii ['F', 'I', 'L', 'L', ' ', 'C']],
      0x0A#8 ∉ l) ∧
    parseLine [] = .ok none ∧ parseLine (ascii [';', 'x']) = .ok none ∧
    parseLine (ascii ['F', 'I', 'L', 'L', ' ', 'V']) = .ok (some ⟨.parityFill, .regV⟩) ∧
    decodeLine ⟨.parityFill, .regV⟩ = .ok (.parityFill .regV) ∧
    parseLine (ascii ['F', 'I', 'L', 'L', ' ', 'C']) = .ok (some ⟨.parityFill, .regC⟩) ∧
    decodeLine ⟨.parityFill, .regC⟩ = .error .operandNotInGrammar ∧
    parseLine (ascii ['F', 'I', 'L', 'L']) = .error .malformedLine := by decide
theorem witness_LoadedTexts :
    ∀ i ∈ [Instr.encode 0xFFFF, .scatter 0, .parityFill .regV, .check .regC, .gather (.imm 0x1FFFFF)], i.wf = true := by
  decide
/-- An operation with a register operand that completes, and a run of it: PairIsTheWordOnTheDrivenPort,
ProgramRunsAsItsPairs. -/
theorem witness_Pairs :
    (regs (exec (.check .regC) { benchAt ⟨.check, .regC⟩ with regC := some 0x1FFFFF#21 })).isSome ∧
    (regs (step { benchAt ⟨.check, .regC⟩ with regC := some 0x1FFFFF#21 })).isSome := by decide
theorem witness_ReadBeforeWrite :
    linesSafe (benchAt ⟨.scatter, .word 0⟩).written (benchAt ⟨.scatter, .word 0⟩).rest = true ∧
    linesSafe (benchAt ⟨.check, .regC⟩).written (benchAt ⟨.check, .regC⟩).rest = false := by decide
theorem witness_SameBench :
    State.reset.SameBench { State.reset with dataIn := some 0xFFFF#16 } ∧
    State.reset ≠ { State.reset with dataIn := some 0xFFFF#16 } :=
  ⟨⟨rfl, rfl, rfl, rfl, rfl, rfl⟩, by decide⟩

end Sys2Proof.Tests
end

section
/-! Input ports are never read: runs from states that differ only in their ports go side by side
(00_scope.md R10, 10_state.md R28, R48, R142). -/

namespace Sys2Proof.Machine

namespace State.SameBench

variable {s s' : State}

theorem dataPos_eq (h : s.SameBench s') : s.dataPos = s'.dataPos := h.1

theorem fetch_eq (h : s.SameBench s') : s.fetch = s'.fetch := by
  obtain ⟨_, _, _, _, hprogram, hline⟩ := h
  rw [State.fetch, State.fetch, hprogram, hline]

theorem vecValue_eq (h : s.SameBench s') (x : VecOperand) : vecValue x s = vecValue x s' := by
  obtain ⟨_, hV, _⟩ := h
  cases x with
  | imm n => rfl
  | regV => exact hV

theorem checkValue_eq (h : s.SameBench s') (x : CheckOperand) : checkValue x s = checkValue x s' := by
  obtain ⟨_, hV, hC, _⟩ := h
  cases x with
  | imm n => rfl
  | regV => exact hV
  | regC => exact hC

/-! `SameBench` names no port, so driving one keeps it as it stands. -/

theorem driveTop (h : s.SameBench s') (d : In16) : (s.driveTop d).SameBench (s'.driveTop d) := h

theorem driveScatter (h : s.SameBench s') (d : In16) : (s.driveScatter d).SameBench (s'.driveScatter d) := h

theorem driveFill (h : s.SameBench s') (v : Vec21) : (s.driveFill v).SameBench (s'.driveFill v) := h

theorem driveCheck (h : s.SameBench s') (v : Vec21) : (s.driveCheck v).SameBench (s'.driveCheck v) := h

theorem driveGather (h : s.SameBench s') (v : Vec21) : (s.driveGather v).SameBench (s'.driveGather v) := h

/-! Both states change alike where a register is written or a line is done. -/

theorem writeV (h : s.SameBench s') (v : Vec21) : (s.writeV v).SameBench (s'.writeV v) := by
  obtain ⟨hpos, _, hC, hS, hprogram, hline⟩ := h
  exact ⟨hpos, rfl, hC, hS, hprogram, hline⟩

theorem writeC (h : s.SameBench s') (c : Code21) : (s.writeC c).SameBench (s'.writeC c) := by
  obtain ⟨hpos, hV, _, hS, hprogram, hline⟩ := h
  exact ⟨hpos, hV, rfl, hS, hprogram, hline⟩

theorem writeS (h : s.SameBench s') (x : Syn5) : (s.writeS x).SameBench (s'.writeS x) := by
  obtain ⟨hpos, hV, hC, _, hprogram, hline⟩ := h
  exact ⟨hpos, hV, hC, rfl, hprogram, hline⟩

theorem advance (h : s.SameBench s') : s.advance.SameBench s'.advance := by
  obtain ⟨hpos, hV, hC, hS, hprogram, hline⟩ := h
  exact ⟨hpos, hV, hC, hS, hprogram, congrArg (· + 1) hline⟩

end State.SameBench

/-- Two outcomes that cannot be told apart but by the ports of the next state. -/
inductive SameOutcome : Host.Outcome State Fault Refusal → Host.Outcome State Fault Refusal → Prop
  | next {t t' : State} (h : t.SameBench t') : SameOutcome (.next t) (.next t')
  | fault (f : Fault) : SameOutcome (.fault f) (.fault f)
  | refused (r : Refusal) : SameOutcome (.refused r) (.refused r)

/-- What one outcome is, the other is too. -/
theorem SameOutcome.transfer {o o' : Host.Outcome State Fault Refusal} (h : SameOutcome o o') :
    (∀ t, o = .next t → ∃ t', o' = .next t' ∧ t.SameBench t') ∧
    (∀ f, o = .fault f → o' = .fault f) ∧ (∀ r, o = .refused r → o' = .refused r) := by
  cases h with
  | next h => exact ⟨fun t ht => ⟨_, rfl, Host.Outcome.next.inj ht ▸ h⟩, nofun, nofun⟩
  | fault f => exact ⟨nofun, fun _ hf => hf, nofun⟩
  | refused r => exact ⟨nofun, nofun, fun _ hr => hr⟩

/-- Reading one operand value for two alike continuations. -/
theorem sameOutcome_withVec (v : Option Vec21) {f f' : Vec21 → State} (h : ∀ x, (f x).SameBench (f' x)) :
    SameOutcome (withVec v fun x => .next (f x)) (withVec v fun x => .next (f' x)) := by
  cases v with
  | none => exact .fault _
  | some x => exact .next (h x)

theorem exec_sameOutcome {s s' : State} (h : s.SameBench s') (i : Instr) :
    SameOutcome (exec i s) (exec i s') := by
  cases i with
  | encode n =>
    rw [exec, exec, execEncode, execEncode, h.dataPos_eq]
    exact .next ((h.driveTop _).writeC _)
  | scatter n =>
    rw [exec, exec, execScatter, execScatter, h.dataPos_eq]
    exact .next ((h.driveScatter _).writeV _)
  | parityFill x =>
    rw [exec, exec, execParityFill, execParityFill, h.vecValue_eq x]
    exact sameOutcome_withVec _ fun v => (h.driveFill v).writeV _
  | check x =>
    rw [exec, exec, execCheck, execCheck, h.checkValue_eq x]
    exact sameOutcome_withVec _ fun v => (h.driveCheck v).writeS _
  | gather x =>
    rw [exec, exec, execGather, execGather, h.vecValue_eq x]
    exact sameOutcome_withVec _ fun v => (h.driveGather v).writeC _

theorem step_sameOutcome {s s' : State} (h : s.SameBench s') : SameOutcome (step s) (step s') := by
  unfold step
  rw [← h.fetch_eq]
  cases s.fetch with
  | none => exact .refused _
  | some l =>
    dsimp only
    cases decodeLine l with
    | error r => exact .refused _
    | ok i =>
      have hexec := exec_sameOutcome h i
      dsimp only
      generalize exec i s = o, exec i s' = o' at hexec ⊢
      cases hexec with
      | next ht => exact .next ht.advance
      | fault f => exact .fault f
      | refused r => exact .refused r

theorem run_sameOutcome {s s' : State} (k : Nat) (h : s.SameBench s') :
    SameOutcome (Host.Core.run Sys2Proof.core k s) (Host.Core.run Sys2Proof.core k s') := by
  induction k generalizing s s' with
  | zero => exact .next h
  | succ k ih =>
    have hstep : SameOutcome (Sys2Proof.core.step s) (Sys2Proof.core.step s') := step_sameOutcome h
    simp only [Host.Core.run]
    generalize Sys2Proof.core.step s = o, Sys2Proof.core.step s' = o' at hstep ⊢
    cases hstep with
    | next ht => exact ih ht
    | fault f => exact .fault f
    | refused r => exact .refused r

/-- Settles O46: step by step, neither run reads a port. -/
theorem earlierPortValuesNeverMatter : Obligations.EarlierPortValuesNeverMatter :=
  fun k _ _ h => (run_sameOutcome k h).transfer

end Sys2Proof.Machine
end

section
/-! The minimum distance of the code is three (00_scope.md R1, R101): no nonzero vector with fewer ones has all
check sums 0. -/

namespace Sys2Proof.Machine

theorem covers_eq_testBit (j i : Nat) : covers j i = (i + 1).testBit j := by
  rw [Nat.testBit_eq_decide_div_mod_eq, covers, Nat.shiftRight_eq_div_pow]
  rfl

/-- Two numbers of 5 bits that differ differ in one of them. -/
theorem exists_testBit_ne {m n : Nat} (hm : m < 32) (hn : n < 32) (h : m ≠ n) :
    ∃ j < 5, m.testBit j ≠ n.testBit j := by
  by_contra! hall
  refine h (Nat.eq_of_testBit_eq fun j => ?_)
  by_cases hj : j < 5
  · exact hall j hj
  · have hpow : 2 ^ 5 ≤ 2 ^ j := Nat.pow_le_pow_right (by decide) (by omega)
    rw [Nat.testBit_lt_two_pow (by omega), Nat.testBit_lt_two_pow (by omega)]

/-- Every position is in some check set. -/
theorem exists_covers {p : Nat} (hp : p < 21) : ∃ j < 5, covers j p = true := by
  obtain ⟨j, hj, h⟩ := exists_testBit_ne (m := p + 1) (n := 0) (by omega) (by decide) (by omega)
  exact ⟨j, hj, by simpa [covers_eq_testBit] using h⟩

/-- Some check set tells two positions apart. -/
theorem exists_covers_ne {p q : Nat} (hp : p < 21) (hq : q < 21) (h : p ≠ q) :
    ∃ j < 5, covers j p ≠ covers j q := by
  obtain ⟨j, hj, h⟩ := exists_testBit_ne (m := p + 1) (n := q + 1) (by omega) (by omega) (by omega)
  exact ⟨j, hj, by rwa [covers_eq_testBit, covers_eq_testBit]⟩

/-- The positions of the ones of a vector. -/
def ones (v : Vec21) : List Nat := (List.range 21).filter v.getLsbD

theorem popcount_eq_length_ones (v : Vec21) : popcount v = (ones v).length := rfl

theorem nodup_ones (v : Vec21) : (ones v).Nodup := List.nodup_range.filter _

theorem lt_of_mem_ones {v : Vec21} {p : Nat} (h : p ∈ ones v) : p < 21 :=
  List.mem_range.1 (List.mem_of_mem_filter h)

theorem eq_zero_of_ones_eq_nil {v : Vec21} (h : ones v = []) : v = 0#21 := by
  apply vec_ext
  intro p hp
  simpa using List.filter_eq_nil_iff.1 h p (List.mem_range.2 hp)

/-- A check sum counts, modulo 2, the ones at positions it covers. -/
theorem checkSum_eq_xorOver_ones (j : Nat) (v : Vec21) : checkSum j v = xorOver (ones v) (covers j) := by
  rw [checkSum_eq_xorOver, xorOver, xorOver, checkSet, ones, List.countP_filter, List.countP_filter]
  simp only [Bool.and_comm, Config.nCode]

theorem three_le_popcount {v : Vec21} (hne : v ≠ 0#21) (h : ∀ j < 5, checkSum j v = false) :
    3 ≤ popcount v := by
  simp only [checkSum_eq_xorOver_ones] at h
  rw [popcount_eq_length_ones]
  have hlt : ∀ p ∈ ones v, p < 21 := fun _ => lt_of_mem_ones
  have hnodup := nodup_ones v
  match hones : ones v with
  | [] => exact absurd (eq_zero_of_ones_eq_nil hones) hne
  | [p] =>
    obtain ⟨j, hj, hcov⟩ := exists_covers (hlt p (by simp [hones]))
    have hzero := h j hj
    simp [hones, hcov] at hzero
  | [p, q] =>
    have hpq : p ≠ q := by simpa [hones] using hnodup
    obtain ⟨j, hj, hcov⟩ := exists_covers_ne (hlt p (by simp [hones])) (hlt q (by simp [hones])) hpq
    have hzero := h j hj
    simp [hones, hcov] at hzero
  | _ :: _ :: _ :: _ => simp

theorem checkSum_encode (t : DataPos) (d : In16) {j : Nat} (hj : j < 5) : checkSum j (encode t d) = false := by
  rw [encode_eq, checkSum_parityFill hj, scatter_getLsbD_slot t d hj]

theorem encode_injective (t : DataPos) : Function.Injective (encode t) := by
  intro a b h
  apply BitVec.eq_of_getLsbD_eq
  intro k hk
  have hbit (d : In16) : d.getLsbD k = (encode t d).getLsbD (t.pos (15 - k)) := by
    rw [encode_getLsbD_pos t d (by omega), show 15 - (15 - k) = k by omega]
  rw [hbit a, hbit b, h]

/-- Settles O26: the XOR of two different codewords is not 0 and has all check sums 0. -/
theorem codewordsDifferInThreePositions : Obligations.CodewordsDifferInThreePositions := by
  intro s a b hab
  refine ⟨_, _, _, _, rfl, rfl, rfl, rfl, ?_⟩
  rw [in16_toNat, in16_toNat]
  apply three_le_popcount
  · exact fun hzero => hab (encode_injective _ (BitVec.xor_eq_zero_iff.1 hzero))
  · intro j hj
    rw [checkSum_xor, checkSum_encode _ _ hj, checkSum_encode _ _ hj, Bool.xor_false]

end Sys2Proof.Machine
end

section
/-! A bench program of the three stages (00_scope.md R15, R184): each step runs the first of the lines still to
run and leaves the others. -/

namespace Sys2Proof.Machine

theorem fetch_of_rest {s : State} {l : Line} {ls : List Line} (h : s.rest = l :: ls) : s.fetch = some l := by
  rw [State.fetch, ← List.head?_drop]
  exact congrArg List.head? h

theorem rest_advance (s : State) : s.advance.rest = s.rest.tail := by
  rw [State.rest, State.rest, List.tail_drop, State.advance_program, State.advance_line]

/-- An instruction leaves the bench's program and line index alone. -/
theorem exec_next_bench {i : Instr} {s t : State} (h : exec i s = .next t) :
    t.program = s.program ∧ t.line = s.line := by
  obtain ⟨n, rfl, rfl⟩ | ⟨n, rfl, rfl⟩ | ⟨x, v, rfl, hv, rfl⟩ | ⟨x, v, rfl, hv, rfl⟩ | ⟨x, v, rfl, hv, rfl⟩ :=
    exec_next_cases h
  all_goals exact ⟨rfl, rfl⟩

/-- The first line still to run decodes to an instruction that completes: the step completes and the other lines
are left to run. -/
theorem step_of_rest {s u : State} {l : Line} {ls : List Line} {i : Instr} (hrest : s.rest = l :: ls)
    (hi : decodeLine l = .ok i) (hu : exec i s = .next u) :
    step s = .next u.advance ∧ u.advance.rest = ls ∧ u.advance.line = s.line + 1 := by
  obtain ⟨hprogram, hline⟩ := exec_next_bench hu
  refine ⟨?_, ?_, ?_⟩
  · rw [step, fetch_of_rest hrest]
    simp only [hi, hu]
  · rw [rest_advance, State.rest, hprogram, hline, ← State.rest, hrest, List.tail_cons]
  · rw [State.advance_line, hline]

theorem decodeLine_scatter_word {n : Nat} (hn : n < 2 ^ 16) :
    decodeLine ⟨.scatter, .word n⟩ = .ok (.scatter n) := by
  have hrange : literalInRange 16 n = true := decide_eq_true hn
  simp [decodeLine, decodeImm16, decodeLiteral, hrange, Except.map]

/-- Settles O27: `V` goes from the scattered vector to the filled one, which GATHER copies to `C`. -/
theorem stagesInSequenceEqualEncode : Obligations.StagesInSequenceEqualEncode := by
  intro s n more hn hrest
  obtain ⟨hstep₁, hrest₁, hline₁⟩ := step_of_rest hrest (decodeLine_scatter_word hn) rfl
  obtain ⟨hstep₂, hrest₂, hline₂⟩ := step_of_rest hrest₁ rfl
    (exec_parityFill_of_value (x := .regV) rfl)
  obtain ⟨hstep₃, hrest₃, hline₃⟩ := step_of_rest hrest₂ rfl
    (exec_gather_of_value (x := .regV) rfl)
  refine ⟨_, _, run_succ_next.2 ⟨_, hstep₁, run_succ_next.2 ⟨_, hstep₂, run_succ_next.2 ⟨_, hstep₃, rfl⟩⟩⟩,
    rfl, rfl, ?_, ?_, hrest₃⟩
  · exact congrArg some (gather_eq _).symm
  · rw [hline₃, hline₂, hline₁]

end Sys2Proof.Machine
end

section
/-! The tables are a partition of the codeword's positions (10_state.md R24), and what an operation, a step and a run
leave unchanged (R21 to R23, 30_encoding.md R63, R68). -/

namespace Sys2Proof.Machine

/-- Settles O4: the facts of the partition check, entry by entry. -/
theorem positionTablesPartitionTheCodeword : Obligations.PositionTablesPartitionTheCodeword := by
  refine fun t => ⟨fun i hi => ⟨t.pos_lt hi, t.pos_not_slot hi⟩, fun p hp hslot => ?_⟩
  obtain ⟨i, hi, hpos⟩ := t.exists_pos hp hslot
  exact ⟨i, hi, hpos, fun k hk hkpos => t.pos_injective hk hi (hkpos.trans hpos.symm)⟩

/-- Settles O31: each of the five things an operation can do drives one port and writes one bench register. -/
theorem operationsKeepEverythingElse : Obligations.OperationsKeepEverythingElse := by
  intro i s t h
  obtain ⟨n, rfl, rfl⟩ | ⟨n, rfl, rfl⟩ | ⟨x, v, rfl, hv, rfl⟩ | ⟨x, v, rfl, hv, rfl⟩ | ⟨x, v, rfl, hv, rfl⟩ :=
    exec_next_cases h
  all_goals simp [Instr.op]

theorem exec_next_dataPos {i : Instr} {s t : State} (h : exec i s = .next t) : t.dataPos = s.dataPos :=
  (operationsKeepEverythingElse i s t h).1

theorem exec_next_dataIn {i : Instr} {s t : State} (h : exec i s = .next t) (hi : i.op ≠ .encode) :
    t.dataIn = s.dataIn := by
  obtain ⟨_, _, _, _, _, _, hdataIn, _⟩ := operationsKeepEverythingElse i s t h
  exact hdataIn hi

/-- Settles O28: `code_out` is a function of `DATA_POS` and `data_in`, and only ENCODE drives `data_in`. -/
theorem codeOutEncodesDataIn : Obligations.CodeOutEncodesDataIn := by
  constructor
  · rintro s _ n ⟨⟩
    exact ⟨rfl, rfl, rfl⟩
  · intro s t i hi h
    rw [State.codeOut, State.codeOut, exec_next_dataPos h, exec_next_dataIn h hi]

theorem line_lt_of_fetch {s : State} {l : Line} (h : s.fetch = some l) : s.line < s.program.length :=
  (List.getElem?_eq_some_iff.1 h).1

/-- A step that completes runs a line inside the program and goes to the next one (D19). -/
theorem step_next_bench {s t : State} (h : step s = .next t) :
    s.line < s.program.length ∧ t.line = s.line + 1 ∧ t.program = s.program ∧ t.dataPos = s.dataPos := by
  obtain ⟨l, i, u, hfetch, _, hexec, rfl⟩ := step_next_cases h
  obtain ⟨hprogram, hline⟩ := exec_next_bench hexec
  exact ⟨line_lt_of_fetch hfetch, congrArg (· + 1) hline, hprogram,
    (State.advance_dataPos u).trans (exec_next_dataPos hexec)⟩

/-- Settles O44, by induction on the number of steps: each one runs a line inside the program and goes to the next. -/
theorem runAdvancesOneLineAStep : Obligations.RunAdvancesOneLineAStep := by
  intro k
  induction k with
  | zero =>
    rintro s _ ⟨⟩
    exact ⟨rfl, rfl, rfl, fun hk => absurd rfl hk⟩
  | succ k ih =>
    intro s t hrun
    obtain ⟨u, hstep, hrun⟩ := run_succ_next.1 hrun
    obtain ⟨hinside, hline, hprogram, hpos⟩ := step_next_bench hstep
    obtain ⟨hline', hprogram', hpos', hbound⟩ := ih u t hrun
    refine ⟨by omega, hprogram'.trans hprogram, hpos'.trans hpos, fun _ => ?_⟩
    by_cases hk : k = 0
    · omega
    · exact hprogram ▸ hbound hk

end Sys2Proof.Machine
end

section
/-! The block keeps no memory between operations (20_memory.md R46, R48, 70_reset_and_hazards.md R183): an operation
on a literal completes in every state and reads nothing of it but `DATA_POS`. -/

namespace Sys2Proof.Machine

/-- An instruction whose operand names no bench register has a literal operand. -/
theorem literal_cases {i : Instr} (hV : i.input ≠ .regV) (hC : i.input ≠ .regC) :
    (∃ n, i = .encode n) ∨ (∃ n, i = .scatter n) ∨ (∃ n, i = .parityFill (.imm n)) ∨
    (∃ n, i = .check (.imm n)) ∨ (∃ n, i = .gather (.imm n)) := by
  cases i with
  | encode n => exact .inl ⟨n, rfl⟩
  | scatter n => exact .inr (.inl ⟨n, rfl⟩)
  | parityFill x =>
    cases x with
    | imm n => exact .inr (.inr (.inl ⟨n, rfl⟩))
    | regV => exact absurd rfl hV
  | check x =>
    cases x with
    | imm n => exact .inr (.inr (.inr (.inl ⟨n, rfl⟩)))
    | regV => exact absurd rfl hV
    | regC => exact absurd rfl hC
  | gather x =>
    cases x with
    | imm n => exact .inr (.inr (.inr (.inr ⟨n, rfl⟩)))
    | regV => exact absurd rfl hV

/-- Settles O32: the first run leaves the port and the result register with what the second one puts there. -/
theorem repeatedOperationChangesNothing : Obligations.RepeatedOperationChangesNothing := by
  intro i s t hV hC h
  obtain ⟨n, rfl⟩ | ⟨n, rfl⟩ | ⟨n, rfl⟩ | ⟨n, rfl⟩ | ⟨n, rfl⟩ := literal_cases hV hC
  all_goals
    cases h
    rfl

/-- Settles O33: a result is a function of the literal and of `DATA_POS`, and the operation before leaves `DATA_POS`
as it was. -/
theorem resultsIgnoreEarlierOperations : Obligations.ResultsIgnoreEarlierOperations := by
  intro i k s t hV hC h
  have hpos : t.dataPos = s.dataPos := exec_next_dataPos h
  obtain ⟨n, rfl⟩ | ⟨n, rfl⟩ | ⟨n, rfl⟩ | ⟨n, rfl⟩ | ⟨n, rfl⟩ := literal_cases hV hC
  all_goals exact ⟨_, _, rfl, rfl, by simp [Instr.op, hpos]⟩

end Sys2Proof.Machine
end

section
/-! Lines and instructions (30_encoding.md R68): a line decodes to an instruction exactly where it is that
instruction's encoding, and the text of an instruction reads as its line. -/

namespace Sys2Proof

theorem except_map_eq_ok {α β : Type} {f : α → β} {e : Except Reject α} {b : β} :
    e.map f = .ok b ↔ ∃ a, e = .ok a ∧ f a = b := by
  cases e <;> simp [Except.map]

theorem decodeLiteral_eq_ok {α : Type} {w n : Nat} {x y : α} :
    decodeLiteral w n x = .ok y ↔ x = y ∧ literalInRange w n = true := by
  cases h : literalInRange w n <;> simp [decodeLiteral, h]

theorem decodeImm16_eq_ok {x : LineInput} {n : Nat} :
    decodeImm16 x = .ok n ↔ x = .word n ∧ literalInRange 16 n = true := by
  cases x <;> simp +contextual [decodeImm16, decodeLiteral_eq_ok]

theorem decodeVec_eq_ok {x : LineInput} {y : VecOperand} :
    decodeVec x = .ok y ↔ x = y.input ∧ (Instr.parityFill y).wf = true := by
  cases x <;> cases y <;> simp +contextual [decodeVec, decodeLiteral_eq_ok, VecOperand.input, Instr.wf]

theorem decodeCheck_eq_ok {x : LineInput} {y : CheckOperand} :
    decodeCheck x = .ok y ↔ x = y.input ∧ (Instr.check y).wf = true := by
  cases x <;> cases y <;> simp +contextual [decodeCheck, decodeLiteral_eq_ok, CheckOperand.input, Instr.wf]

/-- FILL and GATHER have the same operands. -/
theorem wf_gather (x : VecOperand) : (Instr.gather x).wf = (Instr.parityFill x).wf := by
  cases x <;> rfl

theorem decodeLine_encodeLine {i : Instr} (hwf : i.wf = true) : decodeLine (encodeLine i) = .ok i := by
  cases i with
  | encode n => exact except_map_eq_ok.2 ⟨n, decodeImm16_eq_ok.2 ⟨rfl, hwf⟩, rfl⟩
  | scatter n => exact except_map_eq_ok.2 ⟨n, decodeImm16_eq_ok.2 ⟨rfl, hwf⟩, rfl⟩
  | parityFill x => exact except_map_eq_ok.2 ⟨x, decodeVec_eq_ok.2 ⟨rfl, hwf⟩, rfl⟩
  | check x => exact except_map_eq_ok.2 ⟨x, decodeCheck_eq_ok.2 ⟨rfl, hwf⟩, rfl⟩
  | gather x => exact except_map_eq_ok.2 ⟨x, decodeVec_eq_ok.2 ⟨rfl, wf_gather x ▸ hwf⟩, rfl⟩

theorem encodeLine_of_decodeLine {l : Line} {i : Instr} (h : decodeLine l = .ok i) :
    encodeLine i = l ∧ i.wf = true := by
  obtain ⟨op, input⟩ := l
  cases op <;> obtain ⟨x, hx, rfl⟩ := except_map_eq_ok.1 h
  case encode | scatter =>
    obtain ⟨rfl, hwf⟩ := decodeImm16_eq_ok.1 hx
    exact ⟨rfl, hwf⟩
  case parityFill =>
    obtain ⟨rfl, hwf⟩ := decodeVec_eq_ok.1 hx
    exact ⟨rfl, hwf⟩
  case check =>
    obtain ⟨rfl, hwf⟩ := decodeCheck_eq_ok.1 hx
    exact ⟨rfl, hwf⟩
  case gather =>
    obtain ⟨rfl, hwf⟩ := decodeVec_eq_ok.1 hx
    exact ⟨rfl, wf_gather x ▸ hwf⟩

/-- Settles O38: the decoder admits the operand forms an instruction can hold, each with its literal range. -/
theorem lineDecodesToItsInstruction : Obligations.LineDecodesToItsInstruction :=
  ⟨fun _ => decodeLine_encodeLine, fun _ _ => encodeLine_of_decodeLine⟩

/-- A literal is written with enough digits for every value its port can hold. -/
theorem exists_digits (op : Op) : ∃ k, (op.inWidth + 3) / 4 = k + 1 ∧ 2 ^ op.inWidth ≤ 16 ^ (k + 1) := by
  cases op
  case encode | scatter => exact ⟨3, by decide⟩
  case parityFill | check | gather => exact ⟨5, by decide⟩

/-- The operand of an instruction of the grammar is a literal its port can hold, `V` or `C`. -/
theorem input_cases {i : Instr} (hwf : i.wf = true) :
    (∃ n, i.input = .word n ∧ n < 2 ^ i.op.inWidth) ∨ i.input = .regV ∨ i.input = .regC := by
  cases i with
  | encode n => exact .inl ⟨n, rfl, of_decide_eq_true hwf⟩
  | scatter n => exact .inl ⟨n, rfl, of_decide_eq_true hwf⟩
  | parityFill x =>
    cases x with
    | imm n => exact .inl ⟨n, rfl, of_decide_eq_true hwf⟩
    | regV => exact .inr (.inl rfl)
  | check x =>
    cases x with
    | imm n => exact .inl ⟨n, rfl, of_decide_eq_true hwf⟩
    | regV => exact .inr (.inl rfl)
    | regC => exact .inr (.inr rfl)
  | gather x =>
    cases x with
    | imm n => exact .inl ⟨n, rfl, of_decide_eq_true hwf⟩
    | regV => exact .inr (.inl rfl)

/-- The bytes are one word of a line, with no comment in it, that reads as `input`. -/
def ReadsAs (text : List Byte) (input : LineInput) : Prop :=
  text ≠ [] ∧ (∀ b ∈ text, isBlank b = false ∧ (b != 0x3B#8) = true) ∧ parseInput text = .ok input

theorem readsAs_word {op : Op} {n : Nat} (hn : n < 2 ^ op.inWidth) :
    ReadsAs (LineInput.text op.inWidth (.word n)) (.word n) := by
  obtain ⟨k, hk, hpow⟩ := exists_digits op
  rw [LineInput.text, hk]
  exact ⟨by simp [ascii], literal_in_word _ _, parseInput_word (hn.trans_le hpow)⟩

theorem readsAs_regV : ReadsAs (ascii ['V']) .regV := ⟨by decide, by decide, rfl⟩

theorem readsAs_regC : ReadsAs (ascii ['C']) .regC := ⟨by decide, by decide, rfl⟩

theorem readsAs_input {i : Instr} (hwf : i.wf = true) : ReadsAs (i.input.text i.op.inWidth) i.input := by
  obtain ⟨n, hinput, hn⟩ | hinput | hinput := input_cases hwf <;> rw [hinput]
  · exact readsAs_word hn
  · exact readsAs_regV
  · exact readsAs_regC

theorem parseLine_textOf {i : Instr} (hwf : i.wf = true) : parseLine (textOf i) = .ok (some (encodeLine i)) := by
  obtain ⟨hne, hword, hparse⟩ := readsAs_input hwf
  exact parseLine_mnemonic_input i.op hne hword hparse

/-- Settles O39: an instruction's text is read as the instruction's line, which decodes to the instruction. -/
theorem textReadsBackAsItsInstruction : Obligations.TextReadsBackAsItsInstruction := by
  intro i hwf
  rw [decodeText, parseLine_textOf hwf]
  exact decodeLine_encodeLine hwf

/-- Settles O40: each line is a closed text, read by evaluation. -/
theorem sampleLinesDecode : Obligations.SampleLinesDecode := by
  unfold Obligations.SampleLinesDecode
  decide

end Sys2Proof
end

section
/-! Loading a text (30_encoding.md R68, R172): its lines are read in order, blank ones dropped, and the first line
outside the grammar refuses it. -/

namespace Sys2Proof

/-- The line is blank or of the grammar. -/
def Loads (text : List Byte) : Prop :=
  parseLine text = .ok none ∨ ∃ l i, parseLine text = .ok (some l) ∧ decodeLine l = .ok i

/-- The line refuses the text, for the reason `r`. -/
def RefusesFor (text : List Byte) (r : Reject) : Prop :=
  parseLine text = .error r ∨ ∃ l, parseLine text = .ok (some l) ∧ decodeLine l = .error r

theorem loads_or_refuses (text : List Byte) : Loads text ∨ ∃ r, RefusesFor text r := by
  match hline : parseLine text with
  | .error r => exact .inr ⟨r, .inl hline⟩
  | .ok none => exact .inl (.inl hline)
  | .ok (some l) =>
    match hi : decodeLine l with
    | .error r => exact .inr ⟨r, .inr ⟨l, hline, hi⟩⟩
    | .ok i => exact .inl (.inr ⟨l, i, hline, hi⟩)

/-- Lines that load read as the lines they hold, in order. -/
theorem parseLines_of_loads {ts : List (List Byte)} (h : ∀ t ∈ ts, Loads t) :
    parseLines ts = .ok (ts.filterMap fun t => (parseLine t).toOption.join) := by
  induction ts with
  | nil => rfl
  | cons t ts ih =>
    obtain ⟨ht, hts⟩ := List.forall_mem_cons.1 h
    obtain hblank | ⟨l, i, hline, hi⟩ := ht
    · rw [parseLines_blank ts hblank, ih hts, List.filterMap_cons_none (by rw [hblank]; rfl)]
    · rw [parseLines_line ts hline hi, ih hts, List.filterMap_cons_some (b := l) (by rw [hline]; rfl)]
      rfl

/-- The first line outside the grammar gives the reason. -/
theorem parseLines_of_refuses {before : List (List Byte)} {bad : List Byte} {r : Reject}
    (after : List (List Byte)) (hbefore : ∀ t ∈ before, Loads t) (hbad : RefusesFor bad r) :
    parseLines (before ++ bad :: after) = .error r := by
  induction before with
  | nil => exact parseLines_bad after hbad
  | cons t ts ih =>
    obtain ⟨ht, hts⟩ := List.forall_mem_cons.1 hbefore
    rw [List.cons_append]
    obtain hblank | ⟨l, i, hline, hi⟩ := ht
    · rw [parseLines_blank _ hblank, ih hts]
    · rw [parseLines_line _ hline hi, ih hts]
      rfl

theorem decodes_of_parseLines {ts : List (List Byte)} {ls : List Line} (h : parseLines ts = .ok ls) :
    ∀ l ∈ ls, ∃ i, decodeLine l = .ok i := by
  induction ts generalizing ls with
  | nil =>
    cases h
    simp
  | cons t ts ih =>
    obtain (hblank | ⟨l, i, hline, hi⟩) | ⟨r, hbad⟩ := loads_or_refuses t
    · exact ih (parseLines_blank ts hblank ▸ h)
    · rw [parseLines_line ts hline hi] at h
      obtain ⟨ls', hls', rfl⟩ := except_map_eq_ok.1 h
      exact List.forall_mem_cons.2 ⟨⟨i, hi⟩, ih hls'⟩
    · rw [parseLines_bad ts hbad] at h
      cases h

theorem splitLines_ne_nil (text : List Byte) : splitLines text ≠ [] := by
  cases text with
  | nil => simp [splitLines]
  | cons b rest =>
    rw [splitLines]
    split_ifs
    · simp
    · split <;> simp

/-- A byte that is no line feed belongs to the first line. -/
theorem splitLines_cons {b : Byte} (rest : List Byte) (hb : b ≠ 0x0A#8) :
    ∃ l ls, splitLines rest = l :: ls ∧ splitLines (b :: rest) = (b :: l) :: ls := by
  obtain ⟨l, ls, hsplit⟩ := List.exists_cons_of_ne_nil (splitLines_ne_nil rest)
  exact ⟨l, ls, hsplit, by simp [splitLines, hb, hsplit]⟩

theorem splitLines_lineFeed (rest : List Byte) : splitLines (0x0A#8 :: rest) = [] :: splitLines rest := rfl

theorem lineFeed_not_mem_of_splitLines (text : List Byte) : ∀ l ∈ splitLines text, 0x0A#8 ∉ l := by
  induction text with
  | nil => simp [splitLines]
  | cons b rest ih =>
    by_cases hb : b = 0x0A#8
    · rw [hb, splitLines_lineFeed]
      exact List.forall_mem_cons.2 ⟨by simp, ih⟩
    · obtain ⟨l, ls, hrest, hcons⟩ := splitLines_cons rest hb
      rw [hrest] at ih
      obtain ⟨hl, hls⟩ := List.forall_mem_cons.1 ih
      rw [hcons]
      exact List.forall_mem_cons.2 ⟨List.not_mem_cons_of_ne_of_not_mem (Ne.symm hb) hl, hls⟩

theorem intercalate_splitLines (text : List Byte) : List.intercalate [0x0A#8] (splitLines text) = text := by
  induction text with
  | nil => rfl
  | cons b rest ih =>
    by_cases hb : b = 0x0A#8
    · rw [hb, splitLines_lineFeed, List.intercalate_cons_of_ne_nil (splitLines_ne_nil rest), ih]
      rfl
    · obtain ⟨l, ls, hrest, hcons⟩ := splitLines_cons rest hb
      rw [hrest] at ih
      rw [hcons, ← ih]
      cases ls <;> simp [List.intercalate]

/-- A text made of lines is read line by line. No lines at all make the empty text, which is one blank line. -/
theorem parseProgram_intercalate {ls : List (List Byte)} (h : ∀ l ∈ ls, 0x0A#8 ∉ l) :
    parseProgram (List.intercalate [0x0A#8] ls) = parseLines ls := by
  by_cases hls : ls = []
  · subst hls
    rfl
  · rw [parseProgram, splitLines_intercalate hls h]

theorem lineFeed_not_mem_hexDigits (k n : Nat) : 0x0A#8 ∉ hexDigits k n := by
  have hchar : ∀ d < 16, 0x0A#8 ≠ hexChar d := by decide
  induction k generalizing n with
  | zero => simp [hexDigits]
  | succ k ih =>
    rw [hexDigits, List.mem_append, List.mem_singleton]
    exact not_or.2 ⟨ih _, hchar _ (Nat.mod_lt n (by decide))⟩

theorem lineFeed_not_mem_inputText (w : Nat) (x : LineInput) : 0x0A#8 ∉ x.text w := by
  cases x with
  | word n =>
    rw [LineInput.text, List.mem_append]
    exact not_or.2 ⟨by decide, lineFeed_not_mem_hexDigits _ _⟩
  | regV | regC | regS | undriven => rw [LineInput.text]; decide

theorem lineFeed_not_mem_textOf (i : Instr) : 0x0A#8 ∉ textOf i := by
  have hmnemonic : ∀ op : Op, 0x0A#8 ∉ op.mnemonic ++ ascii [' '] := by
    intro op
    cases op <;> decide
  rw [textOf, List.mem_append]
  exact not_or.2 ⟨hmnemonic i.op, lineFeed_not_mem_inputText _ _⟩

theorem loads_textOf {i : Instr} (hwf : i.wf = true) : Loads (textOf i) :=
  .inr ⟨encodeLine i, i, parseLine_textOf hwf, decodeLine_encodeLine hwf⟩

namespace Machine

theorem load_of_parseProgram {text : List Byte} {p : List Line} (s : State) (h : parseProgram text = .ok p) :
    State.load text s = .next (s.start p) := by
  rw [State.load, h]

theorem load_of_parseProgram_error {text : List Byte} {r : Reject} (s : State) (h : parseProgram text = .error r) :
    State.load text s = .refused (.rejected r) := by
  rw [State.load, h]

theorem load_next_cases {text : List Byte} {s t : State} (h : State.load text s = .next t) :
    ∃ p, parseProgram text = .ok p ∧ t = s.start p := by
  cases hp : parseProgram text with
  | error r =>
    rw [load_of_parseProgram_error s hp] at h
    cases h
  | ok p =>
    rw [load_of_parseProgram s hp] at h
    exact ⟨p, rfl, (Host.Outcome.next.inj h).symm⟩

/-- Settles O41: a text is the lines it splits into, and those are read in order up to the first bad one. -/
theorem loadStartsAnUnwrittenBench : Obligations.LoadStartsAnUnwrittenBench := by
  refine ⟨?_, ?_, ?_, ?_⟩
  · intro text s t h
    obtain ⟨p, hp, rfl⟩ := load_next_cases h
    refine ⟨rfl, fun l hl => ?_⟩
    obtain ⟨i, hi⟩ := decodes_of_parseLines hp l hl
    exact ⟨i, hi, (encodeLine_of_decodeLine hi).2⟩
  · exact fun text => ⟨splitLines text, splitLines_ne_nil text, lineFeed_not_mem_of_splitLines text,
      (intercalate_splitLines text).symm⟩
  · intro ls s hfeed hloads
    exact load_of_parseProgram s ((parseProgram_intercalate hfeed).trans (parseLines_of_loads hloads))
  · intro before after bad r s hfeed hbefore hbad
    exact load_of_parseProgram_error s
      ((parseProgram_intercalate hfeed).trans (parseLines_of_refuses after hbefore hbad))

/-- Settles O47: each text is a line that loads, and reads as its instruction's line. -/
theorem loadedTextsAreTheProgram : Obligations.LoadedTextsAreTheProgram := by
  intro is s hwf
  have hfeed : ∀ t ∈ is.map textOf, 0x0A#8 ∉ t := List.forall_mem_map.2 fun i _ => lineFeed_not_mem_textOf i
  have hloads : ∀ t ∈ is.map textOf, Loads t := List.forall_mem_map.2 fun i hi => loads_textOf (hwf i hi)
  have hlines : (is.map textOf).filterMap (fun t => (parseLine t).toOption.join) = is.map encodeLine := by
    rw [List.filterMap_map, ← List.filterMap_eq_map]
    refine List.filterMap_congr fun i hi => ?_
    rw [Function.comp, parseLine_textOf (hwf i hi)]
    rfl
  have hparse := (parseProgram_intercalate hfeed).trans (parseLines_of_loads hloads)
  rw [hlines] at hparse
  exact load_of_parseProgram s hparse

end Machine

end Sys2Proof
end

section
/-! Operands (30_encoding.md R65, R68): an operation does what its input word makes it do, so an instruction runs as
the instruction of the same operation on that word as a literal. -/

namespace Sys2Proof

/-- The instruction of an operation on a literal. -/
def Op.literal : Op → Nat → Instr
  | .encode, n => .encode n
  | .scatter, n => .scatter n
  | .parityFill, n => .parityFill (.imm n)
  | .check, n => .check (.imm n)
  | .gather, n => .gather (.imm n)

theorem encodeLine_literal (op : Op) (n : Nat) : encodeLine (op.literal n) = ⟨op, .word n⟩ := by
  cases op <;> rfl

theorem wf_literal {op : Op} {n : Nat} (h : n < 2 ^ op.inWidth) : (op.literal n).wf = true := by
  cases op <;> exact decide_eq_true h

theorem decodeLine_word {op : Op} {n : Nat} (h : n < 2 ^ op.inWidth) :
    decodeLine ⟨op, .word n⟩ = .ok (op.literal n) :=
  encodeLine_literal op n ▸ decodeLine_encodeLine (wf_literal h)

namespace Machine

/-- An instruction with an input word runs as its operation on that word. -/
theorem exec_eq_literal {i : Instr} {s : State} {w : Nat} (h : inputWord i s = some w) :
    exec i s = exec (i.op.literal w) s := by
  have hvec (v : Vec21) : some (vec21 v.toNat) = some v := congrArg some (vec21_toNat v)
  cases i with
  | encode n | scatter n =>
    obtain rfl := Option.some.inj h
    simp [Instr.op, Op.literal, exec, execEncode, execScatter]
  | parityFill x =>
    obtain ⟨v, hv, rfl⟩ := Option.map_eq_some_iff.1 h
    exact (exec_parityFill_of_value hv).trans (exec_parityFill_of_value (x := .imm _) (hvec v)).symm
  | check x =>
    obtain ⟨v, hv, rfl⟩ := Option.map_eq_some_iff.1 h
    exact (exec_check_of_value hv).trans (exec_check_of_value (x := .imm _) (hvec v)).symm
  | gather x =>
    obtain ⟨v, hv, rfl⟩ := Option.map_eq_some_iff.1 h
    exact (exec_gather_of_value hv).trans (exec_gather_of_value (x := .imm _) (hvec v)).symm

theorem inputWord_lt {i : Instr} {s : State} {w : Nat} (h : inputWord i s = some w) : w < 2 ^ i.op.inWidth := by
  cases i with
  | encode n | scatter n =>
    obtain rfl := Option.some.inj h
    exact (in16 n).isLt
  | parityFill x | check x | gather x =>
    obtain ⟨v, _, rfl⟩ := Option.map_eq_some_iff.1 h
    exact v.isLt

theorem in16_toNat_eq_and (n : Nat) : (in16 n).toNat = n &&& 0xFFFF := by
  rw [in16, BitVec.toNat_ofNat, ← Nat.and_two_pow_sub_one_eq_mod]

theorem vec21_toNat_eq_and (n : Nat) : (vec21 n).toNat = n &&& 0x1FFFFF := by
  rw [vec21, BitVec.toNat_ofNat, ← Nat.and_two_pow_sub_one_eq_mod]

/-- Settles O29: the input word of a literal is its low bits. -/
theorem wideInputsAreTruncated : Obligations.WideInputsAreTruncated := by
  intro s n
  simp only [← in16_toNat_eq_and, ← vec21_toNat_eq_and]
  exact ⟨exec_eq_literal rfl, exec_eq_literal rfl, exec_eq_literal rfl, exec_eq_literal rfl, exec_eq_literal rfl⟩

/-- Settles O30: the input word of a register operand is the register's value. -/
theorem registerOperandRunsAsItsValue : Obligations.RegisterOperandRunsAsItsValue := by
  intro s v
  constructor
  · intro hV
    have hword : s.regV.map BitVec.toNat = some v.toNat := by rw [hV]; rfl
    exact ⟨exec_eq_literal hword, exec_eq_literal hword, exec_eq_literal hword⟩
  · intro hC
    have hword : s.regC.map BitVec.toNat = some v.toNat := by rw [hC]; rfl
    exact exec_eq_literal hword

end Machine

end Sys2Proof
end

section
/-! A step of the bench (30_encoding.md R66, R68): it runs the decoded line, and a placed table word is such a line. -/

namespace Sys2Proof.Machine

/-- Settles O34: the step's cases on what the line decodes to and what the instruction answers. -/
theorem stepRunsTheDecodedLine : Obligations.StepRunsTheDecodedLine := by
  intro s l i hl hi
  refine ⟨fun t ht => ?_, fun f hf => ?_, exec_not_refused i s⟩
  · rw [← (exec_next_bench ht).2, step, State.fetch, hl]
    simp only [hi, ht]
    rfl
  · rw [step, State.fetch, hl]
    simp only [hi, hf]

/-- An instruction with a literal operand completes in every state. -/
theorem exec_completes {i : Instr} (hV : i.input ≠ .regV) (hC : i.input ≠ .regC) (s : State) :
    ∃ t, exec i s = .next t := by
  obtain ⟨n, rfl⟩ | ⟨n, rfl⟩ | ⟨n, rfl⟩ | ⟨n, rfl⟩ | ⟨n, rfl⟩ := literal_cases hV hC
  all_goals exact ⟨_, rfl⟩

theorem ofTableWord_input {nbits w : Nat} {l : Line} (h : Line.ofTableWord nbits w = some l) :
    ∃ n, l.input = .word n := by
  unfold Line.ofTableWord at h
  split_ifs at h <;> exact ⟨_, congrArg Line.input (Option.some.inj h).symm⟩

theorem decodeTableWord_cases {nbits w : Nat} {i : Instr} (h : decodeTableWord nbits w = some i) :
    ∃ l, Line.ofTableWord nbits w = some l ∧ decodeLine l = .ok i := by
  unfold decodeTableWord at h
  split at h
  · cases h
  next l hl =>
    refine ⟨l, hl, ?_⟩
    cases hi : decodeLine l with
    | error r => simp [hi, Except.toOption] at h
    | ok j => simpa [hi, Except.toOption] using h

/-- Settles O35: the placed line is the next one, and its operand is a literal, so its instruction completes. -/
theorem placedTableWordRuns : Obligations.PlacedTableWordRuns := by
  intro s nbits w i h
  obtain ⟨l, hl, hi⟩ := decodeTableWord_cases h
  have hplaced : s.withFetchWord nbits w = s.placeLine l := by rw [State.withFetchWord, hl]
  obtain ⟨n, hinput⟩ := ofTableWord_input hl
  have hword : i.input = .word n := (congrArg Line.input (encodeLine_of_decodeLine hi).1).trans hinput
  obtain ⟨t, ht⟩ := exec_completes (i := i) (by simp [hword]) (by simp [hword]) (s.placeLine l)
  rw [hplaced]
  obtain ⟨hnext, _, _⟩ := stepRunsTheDecodedLine _ l i (s.placeLine_fetch l) hi
  exact ⟨t, ht, hnext t ht, (exec_next_dataPos ht).trans (s.placeLine_dataPos l)⟩

end Sys2Proof.Machine
end

section
/-! The pairs that encode a program (30_encoding.md R68; 95_test_vectors.md section 3): a pair is the word on the port
its operation drives, and as a literal line it does what the encoded line did. -/

namespace Sys2Proof.Machine

/-- After an operation its port holds its input word. -/
theorem portWord_of_next {i : Instr} {s t : State} (h : exec i s = .next t) : t.portWord i.op = inputWord i s := by
  obtain ⟨n, rfl, rfl⟩ | ⟨n, rfl, rfl⟩ | ⟨x, v, rfl, hv, rfl⟩ | ⟨x, v, rfl, hv, rfl⟩ | ⟨x, v, rfl, hv, rfl⟩ :=
    exec_next_cases h
  · rfl
  · rfl
  all_goals exact congrArg (Option.map BitVec.toNat) hv.symm

/-- Settles O48: the pair's word is the instruction's input word, and its line is the operation on that word. -/
theorem pairIsTheWordOnTheDrivenPort : Obligations.PairIsTheWordOnTheDrivenPort := by
  intro i s t h
  obtain ⟨w, hw, hpair⟩ := encodePair_of_next h
  exact ⟨⟨i.op, w⟩, hpair, rfl, (portWord_of_next h).trans hw, inputWord_lt hw, i.op.literal w,
    decodeLine_word (inputWord_lt hw), (exec_eq_literal hw).symm.trans h⟩

/-- The state with another program, at another line of it. -/
def State.onProgram (s : State) (p : List Line) (n : Nat) : State := { s with program := p, line := n }

/-- An operation on a literal does not see the program. -/
theorem exec_literal_onProgram {op : Op} {w : Nat} {s t : State} (h : exec (op.literal w) s = .next t)
    (p : List Line) (n : Nat) : exec (op.literal w) (s.onProgram p n) = .next (t.onProgram p n) := by
  cases op
  all_goals
    cases h
    rfl

/-- A step has a pair, and a step on that pair's line has the same effect. -/
theorem step_of_nextPair {s t : State} (h : step s = .next t) :
    ∃ pair, s.nextPair = some pair ∧ ∀ (p : List Line) (n : Nat) (ls : List Line),
      (s.onProgram p n).rest = pair.line :: ls →
        step (s.onProgram p n) = .next (t.onProgram p (n + 1)) ∧ (t.onProgram p (n + 1)).rest = ls := by
  obtain ⟨l, i, u, hfetch, hi, hu, rfl⟩ := step_next_cases h
  obtain ⟨w, hw, hpair⟩ := encodePair_of_next hu
  refine ⟨⟨i.op, w⟩, (nextPair_eq hfetch hi).trans hpair, fun p n ls hrest => ?_⟩
  obtain ⟨hstep, hrest', _⟩ := step_of_rest hrest (decodeLine_word (inputWord_lt hw))
    (exec_literal_onProgram ((exec_eq_literal hw).symm.trans hu) p n)
  exact ⟨hstep, hrest'⟩

/-- A run of `k` steps has `k` pairs, and from where a program still has their lines to run it goes alike. -/
theorem run_of_encodePairs {k : Nat} {s t : State} (h : Host.Core.run Sys2Proof.core k s = .next t) :
    (encodePairs k s).length = k ∧ ∀ (p : List Line) (n : Nat),
      (s.onProgram p n).rest = (encodePairs k s).map Pair.line →
        Host.Core.run Sys2Proof.core k (s.onProgram p n) = .next (t.onProgram p (n + k)) := by
  induction k generalizing s with
  | zero =>
    cases h
    exact ⟨rfl, fun _ _ _ => rfl⟩
  | succ k ih =>
    obtain ⟨u, hstep, hrun⟩ := run_succ_next.1 h
    obtain ⟨hlength, hpairs⟩ := ih hrun
    obtain ⟨pair, hpair, hline⟩ := step_of_nextPair hstep
    have hcons : encodePairs (k + 1) s = pair :: encodePairs k u := by rw [encodePairs_succ hstep, hpair]; rfl
    rw [hcons]
    refine ⟨congrArg (· + 1) hlength, fun p n hrest => ?_⟩
    obtain ⟨hstep', hrest'⟩ := hline p n _ hrest
    have hadd : n + 1 + k = n + (k + 1) := by omega
    exact run_succ_next.2 ⟨_, hstep', hadd ▸ hpairs p (n + 1) hrest'⟩

/-- Settles O49: the program of the pairs starts with all of them to run. -/
theorem programRunsAsItsPairs : Obligations.ProgramRunsAsItsPairs := by
  intro k s t h
  obtain ⟨hlength, hrun⟩ := run_of_encodePairs h
  refine ⟨hlength, ?_⟩
  have hall := hrun ((encodePairs k s).map Pair.line) 0 rfl
  rwa [Nat.zero_add] at hall

end Sys2Proof.Machine
end

section
/-! Bench registers (30_encoding.md R63, R68, R172): what a step leaves in them is a present output of a unit, and a
line runs exactly where the registers it reads are written. -/

namespace Sys2Proof.Machine

/-- The port an operation drives settles to the value the operation writes in its register, and that port's unit writes
no other register, so every other one keeps the output it equals. -/
theorem exec_keeps_settled {i : Instr} {s t : State} (hs : s.Settled) (h : exec i s = .next t) : t.Settled := by
  obtain ⟨hV, hC, hS⟩ := hs
  obtain ⟨n, rfl, rfl⟩ | ⟨n, rfl, rfl⟩ | ⟨x, v, rfl, hv, rfl⟩ | ⟨x, v, rfl, hv, rfl⟩ | ⟨x, v, rfl, hv, rfl⟩ :=
    exec_next_cases h
  · exact ⟨hV, fun _ hc => .inl hc, hS⟩
  · exact ⟨fun _ hv => .inl hv, hC, hS⟩
  · exact ⟨fun _ hv => .inr hv, hC, hS⟩
  · exact ⟨hV, hC, fun _ hx => hx⟩
  · exact ⟨hV, fun _ hc => .inr hc, hS⟩

/-- Settles O42: a step is an operation and an advance, which touches no register and no port. -/
theorem stepKeepsBenchSettled : Obligations.StepKeepsBenchSettled := by
  intro s t hs h
  obtain ⟨_, _, u, _, _, hu, rfl⟩ := step_next_cases h
  have hsettled : u.Settled := exec_keeps_settled hs hu
  exact hsettled

theorem withVec_completes {v : Option Vec21} {f : Vec21 → State} :
    (∃ t, withVec v (fun x => .next (f x)) = .next t) ↔ v.isSome = true := by
  cases v <;> simp [withVec]

/-- An instruction completes exactly where the bench registers it reads are written. -/
theorem exec_completes_iff {i : Instr} {s : State} :
    (∃ t, exec i s = .next t) ↔ readsOnly s.written i = true := by
  cases i with
  | encode n | scatter n => exact iff_of_true ⟨_, rfl⟩ rfl
  | parityFill x =>
    refine withVec_completes.trans ?_
    cases x <;> exact Iff.rfl
  | check x =>
    refine withVec_completes.trans ?_
    cases x <;> exact Iff.rfl
  | gather x =>
    refine withVec_completes.trans ?_
    cases x <;> exact Iff.rfl

theorem written_of_next {i : Instr} {s t : State} (h : exec i s = .next t) :
    t.written = writtenAfter s.written i := by
  obtain ⟨n, rfl, rfl⟩ | ⟨n, rfl, rfl⟩ | ⟨x, v, rfl, hv, rfl⟩ | ⟨x, v, rfl, hv, rfl⟩ | ⟨x, v, rfl, hv, rfl⟩ :=
    exec_next_cases h
  all_goals rfl

theorem linesSafe_cons {w : Written} {l : Line} {ls : List Line} :
    linesSafe w (l :: ls) = true ↔
      ∃ i, decodeLine l = .ok i ∧ readsOnly w i = true ∧ linesSafe (writtenAfter w i) ls = true := by
  rw [linesSafe]
  cases decodeLine l <;> simp

/-- The first line still to run completes exactly where it decodes and reads written registers only. -/
theorem step_completes_iff_of_rest {s t : State} {l : Line} {ls : List Line} (hrest : s.rest = l :: ls) :
    step s = .next t ↔ ∃ i u, decodeLine l = .ok i ∧ exec i s = .next u ∧ t = u.advance := by
  constructor
  · intro h
    obtain ⟨l', i, u, hfetch, hi, hu, rfl⟩ := step_next_cases h
    obtain rfl : l = l' := Option.some.inj ((fetch_of_rest hrest).symm.trans hfetch)
    exact ⟨i, u, hi, hu, rfl⟩
  · rintro ⟨i, u, hi, hu, rfl⟩
    exact (step_of_rest hrest hi hu).1

/-- Settles O45, by induction on the lines still to run: the first line completes exactly where it is safe, and
leaves written what the check of the other lines starts from. -/
theorem readBeforeWriteCheckIsExact : Obligations.ReadBeforeWriteCheckIsExact := by
  intro s
  induction hrest : s.rest generalizing s with
  | nil => exact iff_of_true ⟨s, rfl⟩ rfl
  | cons l ls ih =>
    have hnext {i : Instr} {u : State} (hi : decodeLine l = .ok i) (hu : exec i s = .next u) :
        (∃ t, Host.Core.run Sys2Proof.core ls.length u.advance = .next t) ↔
          linesSafe (writtenAfter s.written i) ls = true := by
      obtain ⟨_, hrest', _⟩ := step_of_rest hrest hi hu
      exact written_of_next hu ▸ ih u.advance hrest'
    rw [linesSafe_cons]
    constructor
    · rintro ⟨t, hrun⟩
      obtain ⟨u', hstep, hrun⟩ := run_succ_next.1 hrun
      obtain ⟨i, u, hi, hu, rfl⟩ := (step_completes_iff_of_rest hrest).1 hstep
      exact ⟨i, hi, exec_completes_iff.1 ⟨u, hu⟩, (hnext hi hu).1 ⟨t, hrun⟩⟩
    · rintro ⟨i, hi, hreads, hsafe⟩
      obtain ⟨u, hu⟩ := exec_completes_iff.2 hreads
      obtain ⟨t, hrun⟩ := (hnext hi hu).2 hsafe
      exact ⟨t, run_succ_next.2 ⟨u.advance, (step_completes_iff_of_rest hrest).2 ⟨i, u, hi, hu, rfl⟩, hrun⟩⟩

end Sys2Proof.Machine
end

section
/-! SCATTER (41_bit_scatter.md R80, R82, R83): its vector is the one with every data bit at its table position and 0 in
the parity slots, whatever the order of the writes, and no later stage changes a data position. -/

namespace Sys2Proof.Machine

/-- The data positions and the parity slots are all there is (R24), so a vector right at both is the scattered one. -/
theorem eq_scatter {t : DataPos} {d : In16} {v : Vec21}
    (hdata : ∀ i < 16, v.getLsbD (t.pos i) = d.getLsbD (15 - i))
    (hslot : ∀ j < 5, v.getLsbD (2 ^ j - 1) = false) : v = scatter t d := by
  apply vec_ext
  intro p hp
  by_cases hs : p ∈ [0, 1, 3, 7, 15]
  · obtain ⟨j, hj, rfl⟩ := slot_of_mem p hs
    rw [hslot j hj, scatter_getLsbD_slot t d hj]
  · obtain ⟨i, hi, rfl⟩ := t.exists_pos hp hs
    rw [hdata i hi, scatter_getLsbD_pos t d hi]

/-- The writes of SCATTER, done in any order. -/
theorem foldl_writeBit_eq_scatter (t : DataPos) (d : In16) {order : List Nat} (h : order.Perm (List.range 16)) :
    order.foldl (fun w i => writeBit w (t.pos i) (d.getLsbD (15 - i))) 0#21 = scatter t d := by
  have hmem (i : Nat) : i ∈ order ↔ i < 16 := h.mem_iff.trans List.mem_range
  obtain ⟨hwritten, hother⟩ := foldl_writeBit_pos t (fun i => d.getLsbD (15 - i))
    (h.nodup_iff.2 List.nodup_range) (fun i hi => (hmem i).1 hi) 0#21
  apply eq_scatter
  · exact fun i hi => hwritten i ((hmem i).2 hi)
  · intro j hj
    rw [hother (2 ^ j - 1) fun i hi heq => t.pos_not_slot ((hmem i).1 hi) (heq ▸ slot_mem j hj), BitVec.getLsbD_zero]

theorem scatter_zero (t : DataPos) : scatter t 0x0000#16 = 0x000000#21 :=
  (eq_scatter (by simp) (by simp)).symm

/-- `0x1F7F74` is 1 at every position but the parity slots. -/
theorem scatter_allOnes (t : DataPos) : scatter t 0xFFFF#16 = 0x1F7F74#21 := by
  have hones : ∀ p < 21, p ∉ [0, 1, 3, 7, 15] → (0x1F7F74#21 : Vec21).getLsbD p = true := by decide
  have hbits : ∀ i < 16, (0xFFFF#16 : In16).getLsbD (15 - i) = true := by decide
  refine (eq_scatter (fun i hi => ?_) (by decide)).symm
  rw [hones _ (t.pos_lt hi) (t.pos_not_slot hi), hbits i hi]

theorem scatter_default_one : scatter DataPos.default 0x0001#16 = 0x000004#21 := by decide

theorem in16_getLsbD (n : Nat) {k : Nat} (hk : k < 16) : (in16 n).getLsbD k = n.testBit k := by
  rw [in16, BitVec.getLsbD_ofNat, decide_eq_true hk, Bool.true_and]

/-- Only the low 16 bits of the operand reach the port (R65). -/
theorem in16_eq_of_mod {n m : Nat} (h : n % 2 ^ 16 = m) : in16 n = BitVec.ofNat 16 m := by
  apply BitVec.eq_of_toNat_eq
  rw [in16, BitVec.toNat_ofNat, BitVec.toNat_ofNat, ← h, Nat.mod_mod]

/-- Settles O5: the vector is that of `scatter`, and each clause is what `scatter` does with the operand's low
16 bits. -/
theorem scatterPlacesAllSixteenBits : Obligations.ScatterPlacesAllSixteenBits := by
  intro s n
  have hbit (i : Nat) : (in16 n).getLsbD (15 - i) = n.testBit (15 - i) := in16_getLsbD n (by omega)
  refine ⟨scatter s.dataPos (in16 n), rfl, fun i hi => ?_, fun j => scatter_getLsbD_slot _ _, fun order horder => ?_,
    fun hn => ?_, fun hn => ?_, fun ht hn => ?_⟩
  · rw [scatter_getLsbD_pos _ _ hi, hbit]
  · simpa only [hbit] using foldl_writeBit_eq_scatter s.dataPos (in16 n) horder
  · rw [in16_eq_of_mod hn, scatter_zero]
  · rw [in16_eq_of_mod hn, scatter_allOnes]
  · rw [in16_eq_of_mod hn, ht, scatter_default_one]

/-- Settles O19: SCATTER places the bit, PARITY_FILL writes parity slots only, and GATHER copies every element. -/
theorem dataBitsSurviveEveryStage : Obligations.DataBitsSurviveEveryStage := by
  intro t d i hi
  have hscatter := scatter_getLsbD_pos t d hi
  have hfill := parityFill_getLsbD_data (t.pos_not_slot hi) (scatter t d)
  exact ⟨hscatter, hfill.trans hscatter, encode_getLsbD_pos t d hi⟩

end Sys2Proof.Machine
end

section
/-! The check sets and the check sums (42_parity_check_unit.md R100 to R103): the covers relation, the table of
R102 and its masks say the same. -/

namespace Sys2Proof.Machine

theorem mem_checkSet {j i : Nat} : i ∈ checkSet j ↔ i < 21 ∧ covers j i = true := by
  rw [checkSet, List.mem_filter, List.mem_range, Config.nCode]

theorem covers_iff {j i : Nat} : covers j i = true ↔ (i + 1) >>> j &&& 1 = 1 := by
  rw [covers, beq_iff_eq, Nat.and_one_is_mod]

theorem slot_mem_checkSet {j k : Nat} (hj : j < 5) (hk : k < 5) : 2 ^ k - 1 ∈ checkSet j ↔ k = j := by
  rw [(checkSet_perm j hj).mem_iff, List.mem_cons, or_iff_left (dataSet_disjoint j hj k hk)]
  exact ⟨slot_injective k hk j hj, fun h => h ▸ rfl⟩

theorem checkSum_eq_xorOver_slot_cons {j : Nat} (hj : j < 5) (v : Vec21) :
    checkSum j v = xorOver ((2 ^ j - 1) :: dataSet j) v.getLsbD := by
  rw [checkSum_eq_dataSet hj, xorOver_cons, Bool.xor_comm]

theorem tableMask_getLsbD : ∀ j < 5, ∀ i < 21, (tableMask j).getLsbD i = covers j i := by decide

theorem ones_and (v w : Vec21) : ones (v &&& w) = (ones v).filter w.getLsbD := by
  rw [ones, ones, List.filter_filter]
  exact List.filter_congr fun i _ => by rw [BitVec.getLsbD_and, Bool.and_comm]

/-- The ones under a mask are counted by the check sum of its set. -/
theorem checkSum_eq_popcount {j : Nat} (hj : j < 5) (v : Vec21) :
    checkSum j v = (popcount (v &&& tableMask j) % 2 == 1) := by
  have hmask : (ones v).filter (tableMask j).getLsbD = (ones v).filter (covers j) :=
    List.filter_congr fun i hi => tableMask_getLsbD j hj i (lt_of_mem_ones hi)
  rw [checkSum_eq_xorOver_ones, xorOver, popcount_eq_length_ones, ones_and, hmask, List.countP_eq_length_filter]

/-- Settles O2: the five entries of the table. -/
theorem parityPositionIsPowerOfTwoLessOne : Obligations.ParityPositionIsPowerOfTwoLessOne := by
  refine ⟨rfl, fun j hj => ⟨parityPosAt_eq j hj, ?_⟩, rfl⟩
  rw [parityPosAt_eq j hj, Nat.sub_add_cancel Nat.one_le_two_pow]

/-- Settles O6: the sets as lists are closed facts, and each is its slot and data positions. -/
theorem checkSetsMatchTheTable : Obligations.CheckSetsMatchTheTable := by
  refine ⟨fun j _ i hi => ?_, by decide, by decide, by decide, by decide, by decide, by decide, by decide,
    fun j hj k hk => slot_mem_checkSet hj hk⟩
  rw [mem_checkSet, and_iff_right hi, covers_iff]

/-- Settles O7: the own slot with the data positions is the check set, and so is the mask. -/
theorem checkSumCountsCoveredBits : Obligations.CheckSumCountsCoveredBits :=
  fun v _ hj => ⟨checkSum_eq_xorOver_slot_cons hj v, checkSum_eq_popcount hj v⟩

end Sys2Proof.Machine
end

section
/-! PARITY_FILL (42_parity_check_unit.md R104 to R109): no parity write changes another slot's check sum, so the order
of the writes is free; a fill turns each slot's bit into its set's check sum and back. -/

namespace Sys2Proof.Machine

theorem checkSum_parityFillIn_other {order : List Nat} (h5 : ∀ k ∈ order, k < 5) {j : Nat} (hj : j < 5)
    (hother : j ∉ order) (v : Vec21) : checkSum j (parityFillIn order v) = checkSum j v := by
  induction order generalizing v with
  | nil => rfl
  | cons k order ih =>
    obtain ⟨hjk, hother⟩ : j ≠ k ∧ j ∉ order := by simpa using hother
    rw [parityFillIn_cons, ih (fun k hk => h5 k (by simp [hk])) hother,
      checkSum_fillSlot_other hj (h5 k (by simp)) hjk]

theorem filledFrom_parityFillIn {order : List Nat} (h : order.Perm (List.range 5)) (v : Vec21) :
    FilledFrom v (parityFillIn order v) := by
  have hmem (j : Nat) : j ∈ order ↔ j < 5 := h.mem_iff.trans List.mem_range
  have h5 : ∀ j ∈ order, j < 5 := fun j => (hmem j).1
  constructor
  · intro p _ hp
    exact parityFillIn_getLsbD_other h5 v fun j hj hpj => hp (hpj ▸ slot_mem j (h5 j hj))
  · intro j hj
    rw [parityFillIn_getLsbD_slot (h.nodup_iff.2 List.nodup_range) h5 v ((hmem j).2 hj), checkSum_eq_dataSet hj]

/-- The five writes in any order (R106). -/
theorem parityFillIn_eq_parityFill {order : List Nat} (h : order.Perm (List.range 5)) (v : Vec21) :
    parityFillIn order v = parityFill v :=
  (filledFrom_parityFillIn h v).unique (filledFrom_parityFill v)

/-- Writing the check sums of `v` is filling, from any vector that has the check sums of `v` still to write. -/
theorem foldl_writeBit_checkSum {order : List Nat} (hn : order.Nodup) (h5 : ∀ j ∈ order, j < 5) {v w : Vec21}
    (hsum : ∀ j ∈ order, checkSum j w = checkSum j v) :
    order.foldl (fun w j => writeBit w (parityPosAt j) (checkSum j v)) w = parityFillIn order w := by
  induction order generalizing w with
  | nil => rfl
  | cons k order ih =>
    obtain ⟨hk, hn⟩ := List.nodup_cons.1 hn
    have h5' : ∀ j ∈ order, j < 5 := fun j hj => h5 j (by simp [hj])
    rw [List.foldl_cons, ← hsum k (by simp), parityFillIn_cons]
    refine ih hn h5' fun j hj => ?_
    have hjk : j ≠ k := fun h => hk (h ▸ hj)
    exact (checkSum_fillSlot_other (h5' j hj) (h5 k (by simp)) hjk w).trans (hsum j (by simp [hj]))

/-- The five writes at once (R106). -/
theorem parityFillParallel_eq_parityFill (v : Vec21) : parityFillParallel v = parityFill v :=
  foldl_writeBit_checkSum List.nodup_range (by simp [Config.nParity]) fun _ _ => rfl

theorem parityFill_parityFill (v : Vec21) : parityFill (parityFill v) = v := by
  apply vec_ext
  intro p _
  by_cases hs : p ∈ [0, 1, 3, 7, 15]
  · obtain ⟨j, hj, rfl⟩ := slot_of_mem p hs
    rw [parityFill_getLsbD_slot hj, ← checkSum_eq_dataSet hj, checkSum_parityFill hj]
  · rw [parityFill_getLsbD_data hs, parityFill_getLsbD_data hs]

theorem exec_parityFill_imm (n : Nat) (s : State) :
    exec (.parityFill (.imm n)) s =
      .next { s with fillIn := some (vec21 n), regV := some (parityFill (vec21 n)) } :=
  exec_parityFill_of_value rfl

theorem exec_parityFill_regV {s : State} {v : Vec21} (h : s.regV = some v) :
    exec (.parityFill .regV) s = .next { s with fillIn := some v, regV := some (parityFill v) } :=
  exec_parityFill_of_value h

/-- The corner case and the examples of R108. -/
theorem parityFill_examples :
    parityFill 0#21 = 0#21 ∧ parityFill 0x000004#21 = 0x000007#21 ∧ parityFill 0x008005#21 = 0x008006#21 :=
  ⟨(filledFrom_parityFill _).unique ⟨by decide, by decide⟩,
    (filledFrom_parityFill _).unique ⟨by decide, by decide⟩,
    (filledFrom_parityFill _).unique ⟨by decide, by decide⟩⟩

/-- Settles O8: the vector is that of `parityFill`, whatever the operand's form. -/
theorem fillWritesEachCheckSum : Obligations.FillWritesEachCheckSum := by
  obtain ⟨hzero, hone, hslots⟩ := parityFill_examples
  refine ⟨fun s n => ⟨_, exec_parityFill_imm n s, filledFrom_parityFill _,
      fun order horder => parityFillIn_eq_parityFill horder _⟩,
    fun s v hv => ⟨_, exec_parityFill_regV hv, filledFrom_parityFill v⟩, fun s => ?_, fun s => ?_, fun s => ?_⟩
  · rw [exec_parityFill_imm, vec21, hzero]
  · rw [exec_parityFill_imm, vec21, hone]
  · rw [exec_parityFill_imm, vec21, hslots]

/-- Settles O9: a check set's only slot is its own. -/
theorem fillOrderDoesNotMatter : Obligations.FillOrderDoesNotMatter :=
  ⟨fun _ hj _ hk hne hmem => hne ((slot_mem_checkSet hj hk).1 hmem),
    fun v _ horder => parityFillIn_eq_parityFill horder v, parityFillParallel_eq_parityFill⟩

/-- Settles O10: after the fill each check sum is what its slot held before, 0. -/
theorem fillMakesEveryCheckSetEven : Obligations.FillMakesEveryCheckSetEven := by
  intro s v hslots
  refine ⟨parityFill v, ?_, fun j hj => ?_⟩
  · rw [exec_parityFill_imm, vec21_toNat]
  · have hsum : (popcount (parityFill v &&& tableMask j) % 2 == 1) = false := by
      rw [← checkSum_eq_popcount hj, checkSum_parityFill hj, hslots j hj]
    exact Nat.mod_two_ne_one.1 (beq_eq_false_iff_ne.1 hsum)

/-- Settles O11: PARITY_FILL is its own inverse. -/
theorem secondFillRestoresTheVector : Obligations.SecondFillRestoresTheVector :=
  fun _ v hv => ⟨_, _, exec_parityFill_regV hv, exec_parityFill_regV rfl, congrArg some (parityFill_parityFill v)⟩

end Sys2Proof.Machine
end

section
/-! CHECK and the parity bits of a codeword (42_parity_check_unit.md R107, R110 to R112): CHECK is linear, 0 on a
codeword and `i + 1` on the vector with only position `i` set. -/

namespace Sys2Proof.Machine

theorem checkSums_getLsbD_of_lt {j : Nat} (hj : j < 5) (v : Vec21) : (checkSums v).getLsbD j = checkSum j v := by
  rw [checkSums_getLsbD, decide_eq_true hj, Bool.true_and]

theorem checkSums_xor (v w : Vec21) : checkSums (v ^^^ w) = checkSums v ^^^ checkSums w := by
  apply BitVec.eq_of_getLsbD_eq
  intro j hj
  rw [BitVec.getLsbD_xor]
  simp only [checkSums_getLsbD_of_lt hj, checkSum_xor]

theorem checkSum_one_shiftLeft (j : Nat) {i : Nat} (hi : i < 21) : checkSum j (1#21 <<< i) = covers j i := by
  have hnodup : (checkSet j).Nodup := List.nodup_range.filter _
  have hbit : xorOver (checkSet j) (1#21 <<< i).getLsbD = xorOver (checkSet j) fun p => decide (p = i) :=
    xorOver_congr fun p hp => by rw [getLsbD_one_shiftLeft, decide_eq_true (mem_checkSet.1 hp).1, Bool.and_true]
  rw [checkSum_eq_xorOver, hbit, xorOver_single _ hnodup]
  simp [mem_checkSet, hi]

/-- The syndrome of one position is its 1-based number. -/
theorem checkSums_one_shiftLeft {i : Nat} (hi : i < 21) : checkSums (1#21 <<< i) = BitVec.ofNat 5 (i + 1) := by
  apply BitVec.eq_of_getLsbD_eq
  intro j hj
  rw [checkSums_getLsbD_of_lt hj, checkSum_one_shiftLeft j hi, covers_eq_testBit, BitVec.getLsbD_ofNat,
    decide_eq_true hj, Bool.true_and]

theorem checkSums_encode (t : DataPos) (d : In16) : checkSums (encode t d) = 0#5 := by
  apply BitVec.eq_of_getLsbD_eq
  intro j hj
  rw [checkSums_getLsbD_of_lt hj, checkSum_encode t d hj, BitVec.getLsbD_zero]

theorem checkSums_encode_flip (t : DataPos) (d : In16) {i : Nat} (hi : i < 21) :
    checkSums (encode t d ^^^ (1#21 <<< i)) = BitVec.ofNat 5 (i + 1) := by
  rw [checkSums_xor, checkSums_encode, checkSums_one_shiftLeft hi, BitVec.zero_xor]

theorem checkSums_getLsbD_eq_xorOver (v : Vec21) :
    ∀ j < 5, (checkSums v).getLsbD j = xorOver ((2 ^ j - 1) :: dataSet j) v.getLsbD := by
  intro j hj
  rw [checkSums_getLsbD_of_lt hj, checkSum_eq_xorOver_slot_cons hj]

/-- CHECK on an operand that has a value (R110). -/
theorem exec_check_eq {x : CheckOperand} {s : State} {v : Vec21} {r : Syn5} (hx : checkValue x s = some v)
    (hr : checkSums v = r) : exec (.check x) s = .next { s with checkIn := some v, regS := some r } := by
  rw [exec_check_of_value hx, hr]
  rfl

/-- The examples of R110. -/
theorem checkSums_examples : checkSums 0x02A3A1#21 = 0x00#5 ∧ checkSums 0x02A3A0#21 = 0x01#5 := by decide

/-- Settles O12: CHECK writes `checkSums` of its operand's value, and a flip adds the flipped position's syndrome to
the codeword's, which is 0. -/
theorem checkReportsTheSyndrome : Obligations.CheckReportsTheSyndrome := by
  obtain ⟨hgood, hbad⟩ := checkSums_examples
  refine ⟨fun s n => ⟨_, exec_check_eq rfl rfl, checkSums_getLsbD_eq_xorOver _⟩,
    fun s v hv => ⟨_, exec_check_eq hv rfl, checkSums_getLsbD_eq_xorOver v⟩,
    fun s c hc => ⟨_, exec_check_eq hc rfl, checkSums_getLsbD_eq_xorOver c⟩,
    fun s n => ⟨_, _, rfl, rfl, exec_check_eq rfl (checkSums_encode _ _), fun i hi => ?_⟩,
    fun s => exec_check_eq rfl hgood, fun s => exec_check_eq rfl hbad⟩
  exact exec_check_eq (congrArg some (vec21_toNat _)) (checkSums_encode_flip _ _ hi)

theorem checkSum_writeBit_slot {j : Nat} (hj : j < 5) (v : Vec21) (b : Bool) :
    checkSum j (writeBit v (2 ^ j - 1) b) = (xorOver (dataSet j) v.getLsbD ^^ b) := by
  have hdata : ∀ p, p ∉ [0, 1, 3, 7, 15] → (writeBit v (2 ^ j - 1) b).getLsbD p = v.getLsbD p := by
    intro p hp
    rw [writeBit_getLsbD, if_neg]
    rintro ⟨rfl, -⟩
    exact hp (slot_mem j hj)
  rw [checkSum_eq_dataSet hj, xorOver_dataSet_of_eq hj hdata, writeBit_getLsbD, if_pos ⟨rfl, slot_lt j hj⟩]

/-- Settles O13: with its slot cleared a check sum is that of the data positions, which is what ENCODE stores. -/
theorem storedParityIsReproduced : Obligations.StoredParityIsReproduced := by
  refine fun s n => ⟨_, _, rfl, rfl, fun j hj => ⟨?_, checkSum_encode _ _ hj⟩⟩
  rw [checkSum_writeBit_slot hj, Bool.xor_false, ← encode_getLsbD_slot _ _ hj]

theorem checkSum_scatter (t : DataPos) (d : In16) {j : Nat} (hj : j < 5) :
    checkSum j (scatter t d) = xorOver (dataSet j) (scatter t d).getLsbD := by
  rw [checkSum_eq_dataSet hj, scatter_getLsbD_slot t d hj, Bool.xor_false]

/-- Parity bit `j` of a codeword, from the scattered vector (R107). -/
theorem encode_getLsbD_slot_eq_scatter (t : DataPos) (d : In16) {j : Nat} (hj : j < 5) :
    (encode t d).getLsbD (2 ^ j - 1) = xorOver (dataSet j) (scatter t d).getLsbD := by
  rw [encode_eq, parityFill_getLsbD_slot hj, scatter_getLsbD_slot t d hj, Bool.xor_false]

/-- Settles O14: the writes before write `j` touch neither slot `j` nor its sum. -/
theorem ownSlotIsInertWhenEncoding : Obligations.OwnSlotIsInertWhenEncoding := by
  intro t d j hj
  have h5 : ∀ k ∈ List.range j, k < 5 := fun k hk => (List.mem_range.1 hk).trans hj
  have hother : j ∉ List.range j := by simp
  refine ⟨?_, ?_, encode_getLsbD_slot_eq_scatter t d hj⟩
  · rw [parityFillIn_getLsbD_other h5 _ fun k hk h => hother (slot_injective j hj k (h5 k hk) h ▸ hk),
      scatter_getLsbD_slot t d hj]
  · rw [checkSum_parityFillIn_other h5 hj hother, checkSum_scatter t d hj]

/-- The input bits that the default table places at the data positions of `S_j` (R107). -/
def inputSet : Nat → List Nat
  | 0 => [0, 1, 3, 4, 6, 8, 10, 11, 13, 15]
  | 1 => [0, 2, 3, 5, 6, 9, 10, 12, 13]
  | 2 => [1, 2, 3, 7, 8, 9, 10, 14, 15]
  | 3 => [4, 5, 6, 7, 8, 9, 10]
  | 4 => [11, 12, 13, 14, 15]
  | _ => []

theorem dataSet_eq_map_inputSet :
    ∀ j < 5, dataSet j = (inputSet j).map fun k => DataPos.default.pos (15 - k) := by decide

theorem inputSet_lt : ∀ j < 5, ∀ k ∈ inputSet j, k < 16 := by decide

/-- Parity bit `j` of a codeword under the default table, from the input bits (R107). -/
theorem encode_default_getLsbD_slot (d : In16) {j : Nat} (hj : j < 5) :
    (encode DataPos.default d).getLsbD (2 ^ j - 1) = xorOver (inputSet j) d.getLsbD := by
  have hmap : xorOver (dataSet j) (scatter DataPos.default d).getLsbD =
      xorOver (inputSet j) fun k => (scatter DataPos.default d).getLsbD (DataPos.default.pos (15 - k)) := by
    rw [dataSet_eq_map_inputSet j hj, xorOver, List.countP_map]
    rfl
  rw [encode_getLsbD_slot_eq_scatter _ _ hj, hmap]
  refine xorOver_congr fun k hk => ?_
  have hk16 := inputSet_lt j hj k hk
  rw [scatter_getLsbD_pos _ _ (by omega), show 15 - (15 - k) = k by omega]

theorem exec_encode_toNat (d : In16) (s : State) :
    exec (.encode d.toNat) s = .next { s with dataIn := some d, regC := some (encode s.dataPos d) } := by
  rw [exec, execEncode, in16_toNat]
  rfl

/-- An XOR over listed positions, associated as R107 writes its equations. -/
theorem xorOver_cons_eq_foldl (a : Nat) (l : List Nat) (f : Nat → Bool) :
    xorOver (a :: l) f = l.foldl (fun b i => b ^^ f i) (f a) := by
  have hfold : ∀ b, l.foldl (fun b i => b ^^ f i) b = (b ^^ xorOver l f) := by
    induction l with
    | nil => simp
    | cons i l ih => intro b; rw [List.foldl_cons, ih, xorOver_cons, Bool.xor_assoc]
  rw [xorOver_cons, hfold]

/-- Each parity bit as an equation of R107, from the sets that give the five bits. -/
theorem slot_eq_foldl {c : Code21} {sets : Nat → List Nat} {f : Nat → Bool}
    (h : ∀ j < 5, c.getLsbD (2 ^ j - 1) = xorOver (sets j) f) (j : Nat) (hj : j < 5) {a : Nat} {l : List Nat}
    (hset : sets j = a :: l) : c.getLsbD (2 ^ j - 1) = l.foldl (fun b i => b ^^ f i) (f a) := by
  rw [h j hj, hset, xorOver_cons_eq_foldl]

/-- Settles O20: the data positions of each check set, and the input bits there under the default table. -/
theorem parityBitEquations : Obligations.ParityBitEquations := by
  constructor
  · intro s d
    have hbit := slot_eq_foldl fun _ hj => encode_getLsbD_slot_eq_scatter s.dataPos d hj
    exact ⟨_, exec_encode_toNat d s, hbit 0 (by decide) rfl, hbit 1 (by decide) rfl, hbit 2 (by decide) rfl,
      hbit 3 (by decide) rfl, hbit 4 (by decide) rfl⟩
  · intro s d ht
    have hbit := slot_eq_foldl fun _ hj => encode_default_getLsbD_slot d hj
    exact ⟨_, ht ▸ exec_encode_toNat d s, hbit 0 (by decide) rfl, hbit 1 (by decide) rfl, hbit 2 (by decide) rfl,
      hbit 3 (by decide) rfl, hbit 4 (by decide) rfl⟩

end Sys2Proof.Machine
end

section
/-! GATHER (43_bit_gather.md R120 to R122): the codeword is the vector, so its integer value is the vector's binary
expansion. -/

namespace Sys2Proof.Machine

/-- Settles O15: GATHER writes its operand's value to `C`; a literal's value is its low 21 bits. -/
theorem gatherCopiesEveryElement : Obligations.GatherCopiesEveryElement := by
  refine ⟨fun s n => ⟨_, exec_gather_of_value rfl, fun i hi => ?_⟩,
    fun s v hv => ⟨_, exec_gather_of_value hv, fun i _ => ?_⟩,
    gather_eq _, gather_eq _, gather_eq _⟩
  · rw [gather_eq, BitVec.getLsbD_ofNat, decide_eq_true hi, Bool.true_and]
  · rw [gather_eq]

/-- The low `k` bits of a number, each with its weight: bit `k` adds `2 ^ k` to the value of the bits below it. -/
theorem mod_two_pow_eq_weightedSum (x k : Nat) :
    x % 2 ^ k = ((List.range k).map fun i => (x.testBit i).toNat * 2 ^ i).sum := by
  induction k with
  | zero => simp [Nat.mod_one]
  | succ k ih =>
    rw [Nat.mod_pow_succ, ih, ← Nat.toNat_testBit, List.range_succ, List.map_append, List.sum_append,
      List.map_singleton, List.sum_singleton, Nat.mul_comm]

/-- Settles O16: the codeword is the vector, and a 21-bit value is the sum of its weighted bits. -/
theorem gatherIsTheWeightedSum : Obligations.GatherIsTheWeightedSum := by
  intro v
  calc (gather v).toNat = v.toNat % 2 ^ 21 := by rw [gather_eq, Nat.mod_eq_of_lt v.isLt]
    _ = ((List.range 21).map fun i => (v.getLsbD i).toNat * 2 ^ i).sum := mod_two_pow_eq_weightedSum v.toNat 21

/-- Settles O17: an order of 0..20 visits every position, and a visited position holds its element. -/
theorem gatherOrderDoesNotMatter : Obligations.GatherOrderDoesNotMatter := by
  intro v order horder i hi
  have hvisited : i ∈ order := horder.mem_iff.2 (List.mem_range.2 hi)
  rw [gatherIn_getLsbD, decide_eq_true hvisited, Bool.true_and]

end Sys2Proof.Machine
end

section
/-! ENCODE (44_hamming_21_16_encoder.md R140 to R146): a vector with the data bits at their table positions and every
check sum 0 is the codeword of those bits. So ENCODE is linear over XOR, and each codeword value of the spec is a
check of that vector's 16 data bits and 5 check sums. -/

namespace Sys2Proof.Machine

/-- The codeword is the only vector with its data bits and even check sets. -/
theorem eq_encode {t : DataPos} {d : In16} {c : Code21}
    (hdata : ∀ i < 16, c.getLsbD (t.pos i) = d.getLsbD (15 - i))
    (hsum : ∀ j < 5, checkSum j c = false) : encode t d = c := by
  have hagree : ∀ p, p ∉ [0, 1, 3, 7, 15] → c.getLsbD p = (scatter t d).getLsbD p := by
    intro p hs
    by_cases hp : p < 21
    · obtain ⟨i, hi, rfl⟩ := t.exists_pos hp hs
      rw [hdata i hi, scatter_getLsbD_pos t d hi]
    · rw [BitVec.getLsbD_of_ge _ _ (by omega), BitVec.getLsbD_of_ge _ _ (by omega)]
  have hslot : ∀ j < 5, c.getLsbD (2 ^ j - 1) = xorOver (dataSet j) c.getLsbD := fun j hj =>
    (bne_eq_false_iff_eq.1 ((checkSum_eq_dataSet hj c).symm.trans (hsum j hj))).symm
  rw [encode_eq]
  refine (filledFrom_parityFill _).unique ⟨fun p _ => hagree p, fun j hj => ?_⟩
  rw [hslot j hj, scatter_getLsbD_slot t d hj, Bool.xor_false, xorOver_dataSet_of_eq hj hagree]

theorem encode_xor (t : DataPos) (a b : In16) : encode t (a ^^^ b) = encode t a ^^^ encode t b := by
  apply eq_encode
  · intro i hi
    rw [BitVec.getLsbD_xor, BitVec.getLsbD_xor, encode_getLsbD_pos t a hi, encode_getLsbD_pos t b hi]
  · intro j hj
    rw [checkSum_xor, checkSum_encode t a hj, checkSum_encode t b hj, Bool.xor_false]

theorem encode_zero (t : DataPos) : encode t 0#16 = 0#21 := eq_encode (by simp) (by decide)

theorem encode_allOnes (t : DataPos) : encode t 0xFFFF#16 = 0x1FFFFE#21 := by
  have hones : ∀ p < 21, p ∉ [0, 1, 3, 7, 15] → (0x1FFFFE#21 : Code21).getLsbD p = true := by decide
  have hbits : ∀ i < 16, (0xFFFF#16 : In16).getLsbD (15 - i) = true := by decide
  refine eq_encode (fun i hi => ?_) (by decide)
  rw [hones _ (t.pos_lt hi) (t.pos_not_slot hi), hbits i hi]

/-- ENCODE on an operand whose low 16 bits and whose codeword are known. -/
theorem exec_encode_eq {n : Nat} {s : State} {d : In16} {c : Code21} (hd : in16 n = d)
    (hc : encode s.dataPos d = c) : exec (.encode n) s = .next { s with dataIn := some d, regC := some c } := by
  rw [exec, execEncode, hd, hc]
  rfl

/-- Settles O18: the codeword is that of `encode`, on the operand's low 16 bits. -/
theorem encodeLaysOutTheCodeword : Obligations.EncodeLaysOutTheCodeword := by
  refine fun s n => ⟨_, exec_encode_eq rfl rfl, fun i hi => ?_, fun j => encode_getLsbD_slot _ _⟩
  exact (encode_getLsbD_pos _ _ hi).trans (in16_getLsbD n (by omega))

/-- Settles O22: ENCODE writes `encode` of the table and the input, whatever else the state holds. -/
theorem encodeDependsOnInputAndTablesOnly : Obligations.EncodeDependsOnInputAndTablesOnly := by
  refine fun t d => ⟨encode t d, fun s ht => ht ▸ exec_encode_toNat d s, ?_⟩
  rintro c ⟨s, u, rfl, hu, hc⟩
  rw [exec_encode_toNat] at hu
  cases hu
  exact (Option.some.inj hc).symm

/-- Settles O23: with all data bits 1, the check sums of `0x1FFFFE` are 0 whatever the order of the table. -/
theorem allOnesEncodesTo1FFFFE : Obligations.AllOnesEncodesTo1FFFFE :=
  ⟨fun s => exec_encode_eq rfl (encode_allOnes s.dataPos), by decide, by decide⟩

/-- The codewords of R145's example, under the default table. -/
theorem encode_default_examples :
    encode DataPos.default 0x1234#16 = 0x02A3A1#21 ∧ encode DataPos.default 0xABCD#16 = 0x15BC65#21 ∧
      encode DataPos.default 0xB9F9#16 = 0x171FC4#21 :=
  ⟨eq_encode (by decide) (by decide), eq_encode (by decide) (by decide), eq_encode (by decide) (by decide)⟩

/-- Settles O24: data bits and check sums are linear, and they determine the codeword. -/
theorem encodeIsLinear : Obligations.EncodeIsLinear := by
  obtain ⟨ha, hb, hab⟩ := encode_default_examples
  refine ⟨fun s a b => ?_, fun s => exec_encode_eq rfl (encode_zero s.dataPos), fun s ht => ?_⟩
  · exact ⟨_, _, _, _, _, exec_encode_toNat a s, rfl, exec_encode_toNat b s, rfl, exec_encode_toNat (a ^^^ b) s,
      congrArg some (encode_xor s.dataPos a b)⟩
  · rw [← ht] at ha hb hab
    exact ⟨exec_encode_eq rfl ha, exec_encode_eq rfl hb, exec_encode_eq rfl hab, rfl⟩

/-- A run of data bits that the table places in a run of positions is that slice of the codeword. -/
theorem encode_extractLsb' {t : DataPos} (d : In16) {k p len : Nat}
    (h : ∀ i < len, k + i < 16 ∧ t.pos (15 - (k + i)) = p + i) :
    (encode t d).extractLsb' p len = d.extractLsb' k len := by
  apply BitVec.eq_of_getLsbD_eq
  intro i hi
  obtain ⟨hlt, hpos⟩ := h i hi
  rw [BitVec.getLsbD_extractLsb', BitVec.getLsbD_extractLsb', ← hpos, encode_getLsbD_pos t d (by omega),
    show 15 - (15 - (k + i)) = k + i by omega]

theorem extractLsb'_one (c : Code21) (p : Nat) : c.extractLsb' p 1 = BitVec.ofBool (c.getLsbD p) := by
  apply BitVec.eq_of_getLsbD_eq
  intro i hi
  obtain rfl : i = 0 := by omega
  simp

/-- A codeword as the slices of the layout of R61: four runs of data bits, and the five parity bits between them. -/
theorem code_eq_slices (c : Code21) :
    c = c.extractLsb' 16 5 ++ BitVec.ofBool (c.getLsbD 15) ++ c.extractLsb' 8 7 ++ BitVec.ofBool (c.getLsbD 7) ++
      c.extractLsb' 4 3 ++ BitVec.ofBool (c.getLsbD 3) ++ c.extractLsb' 2 1 ++ BitVec.ofBool (c.getLsbD 1) ++
      BitVec.ofBool (c.getLsbD 0) := by
  have hjoin (p len k : Nat) : c.extractLsb' (p + len) k ++ c.extractLsb' p len = c.extractLsb' p (k + len) :=
    BitVec.extractLsb'_append_extractLsb'_eq_extractLsb' rfl
  simp only [← extractLsb'_one]
  rw [hjoin 15 1, hjoin 8 7, hjoin 7 1, hjoin 4 3, hjoin 3 1, hjoin 2 1, hjoin 1 1, hjoin 0 1]
  exact BitVec.extractLsb'_eq_self.symm

/-- Settles O21: slice by slice, the data bits are where the default table puts them and the parity bits are those of
R107. -/
theorem encodeEqualsItsClosedForm : Obligations.EncodeEqualsItsClosedForm := by
  intro s x ht
  have hbit := slot_eq_foldl fun _ hj => encode_default_getLsbD_slot x hj
  have hp0 : (encode DataPos.default x).getLsbD 0 = _ := hbit 0 (by decide) rfl
  have hp1 : (encode DataPos.default x).getLsbD 1 = _ := hbit 1 (by decide) rfl
  have hp2 : (encode DataPos.default x).getLsbD 3 = _ := hbit 2 (by decide) rfl
  have hp3 : (encode DataPos.default x).getLsbD 7 = _ := hbit 3 (by decide) rfl
  have hp4 : (encode DataPos.default x).getLsbD 15 = _ := hbit 4 (by decide) rfl
  refine exec_encode_eq (in16_toNat x) ?_
  rw [ht, code_eq_slices (encode DataPos.default x), encode_extractLsb' (k := 11) x (by decide),
    encode_extractLsb' (k := 4) x (by decide), encode_extractLsb' (k := 1) x (by decide),
    encode_extractLsb' (k := 0) x (by decide), hp0, hp1, hp2, hp3, hp4]
  rfl

/-- The codewords of the single-bit inputs under the default table, bit 0 first (R146). -/
def singleBitCodewords : List Code21 :=
  [0x000007#21, 0x000019#21, 0x00002A#21, 0x00004B#21, 0x000181#21, 0x000282#21, 0x000483#21, 0x000888#21,
   0x001089#21, 0x00208A#21, 0x00408B#21, 0x018001#21, 0x028002#21, 0x048003#21, 0x088008#21, 0x108009#21]

theorem encode_default_singleBit {k : Nat} (hk : k < 16) :
    encode DataPos.default (1#16 <<< k) = singleBitCodewords.getD k 0#21 := by
  have hdata : ∀ k < 16, ∀ i < 16, (singleBitCodewords.getD k 0#21).getLsbD (DataPos.default.pos i) =
      (1#16 <<< k).getLsbD (15 - i) := by decide
  have hsum : ∀ k < 16, ∀ j < 5, checkSum j (singleBitCodewords.getD k 0#21) = false := by decide
  exact eq_encode (hdata k hk) (hsum k hk)

/-- The XOR of `f k` over the set bits `k < n` of `d`. -/
def xorOfSetBits {w : Nat} (d : In16) (f : Nat → BitVec w) (n : Nat) : BitVec w :=
  (List.range n).foldl (fun x k => if d.getLsbD k then x ^^^ f k else x) 0#w

theorem xorOfSetBits_succ {w : Nat} (d : In16) (f : Nat → BitVec w) (n : Nat) :
    xorOfSetBits d f (n + 1) = if d.getLsbD n then xorOfSetBits d f n ^^^ f n else xorOfSetBits d f n := by
  rw [xorOfSetBits, List.range_succ, List.foldl_append]
  rfl

theorem xorOfSetBits_congr {w : Nat} (d : In16) {f g : Nat → BitVec w} {n : Nat} (h : ∀ k < n, f k = g k) :
    xorOfSetBits d f n = xorOfSetBits d g n :=
  List.foldl_ext _ _ _ fun x k hk => by rw [h k (List.mem_range.1 hk)]

theorem singleBit_getLsbD (n : Nat) {i : Nat} (hi : i < 16) : (1#16 <<< n).getLsbD i = decide (n = i) := by
  rw [← BitVec.twoPow_eq, BitVec.getLsbD_twoPow]
  by_cases hni : n = i <;> simp [hni, hi]

/-- The single-bit words of the set bits below `n` add up to the low `n` bits of the word. -/
theorem xorOfSetBits_singleBit_getLsbD (d : In16) (n : Nat) {i : Nat} (hi : i < 16) :
    (xorOfSetBits d (1#16 <<< ·) n).getLsbD i = (decide (i < n) && d.getLsbD i) := by
  induction n with
  | zero => simp [xorOfSetBits]
  | succ n ih =>
    rw [xorOfSetBits_succ]
    by_cases hni : n = i
    · subst n
      cases hd : d.getLsbD i <;> simp [hd, ih, singleBit_getLsbD i hi]
    · have hlt : i < n + 1 ↔ i < n := by omega
      cases hd : d.getLsbD n <;> simp [ih, singleBit_getLsbD n hi, hni, hlt]

theorem xorOfSetBits_singleBit (d : In16) : xorOfSetBits d (1#16 <<< ·) 16 = d := by
  apply BitVec.eq_of_getLsbD_eq
  intro i hi
  rw [xorOfSetBits_singleBit_getLsbD d 16 hi, decide_eq_true hi, Bool.true_and]

theorem encode_xorOfSetBits (t : DataPos) (d : In16) (f : Nat → In16) (n : Nat) :
    encode t (xorOfSetBits d f n) = xorOfSetBits d (fun k => encode t (f k)) n := by
  induction n with
  | zero => exact encode_zero t
  | succ n ih => rw [xorOfSetBits_succ, xorOfSetBits_succ, apply_ite (encode t), encode_xor, ih]

/-- By linearity, the codewords of the single-bit inputs generate every codeword. -/
theorem encode_eq_xorOfSetBits (t : DataPos) (d : In16) :
    encode t d = xorOfSetBits d (fun k => encode t (1#16 <<< k)) 16 := by
  rw [← encode_xorOfSetBits, xorOfSetBits_singleBit]

/-- Settles O25: 16 codewords by their data bits and check sums, and every other by linearity. -/
theorem singleBitCodewordsGenerateTheCode : Obligations.SingleBitCodewordsGenerateTheCode := by
  intro s ht
  have hin : ∀ k < 16, in16 (2 ^ k) = 1#16 <<< k := by decide
  refine ⟨fun k hk => exec_encode_eq (hin k hk) (ht ▸ encode_default_singleBit hk),
    fun d => exec_encode_eq (in16_toNat d) ?_⟩
  rw [ht, encode_eq_xorOfSetBits]
  exact xorOfSetBits_congr d fun k hk => encode_default_singleBit hk

end Sys2Proof.Machine
end

section
/-! Construction (60_exceptions.md R170): the partition check of R24 is what R170 asks of a `DATA_POS` argument. -/

namespace Sys2Proof

/-- The partition check, as the invariant it stands for (R24): the two tables together are 0..20, each once. -/
theorem dataPosLegal_iff_perm {t : List Nat} :
    dataPosLegal t = true ↔ (t ++ [0, 1, 3, 7, 15]).Perm (List.range 21) := by
  constructor
  · intro h
    exact DataPos.perm_range ⟨t, h⟩
  · intro h
    have hlength : t.length = 16 := by simpa using h.length_eq
    have hcount : ∀ p < 21, (t ++ [0, 1, 3, 7, 15]).count p = 1 := fun p hp =>
      (h.count_eq p).trans (List.count_eq_one_of_mem List.nodup_range (List.mem_range.2 hp))
    simpa [dataPosLegal, Config.nData, Config.nCode, Config.parityPos, hlength] using hcount

/-- The partition check, entry by entry (R170). 16 distinct entries and the 5 slots, none of them shared, fill all 21
positions, since none is above 20. -/
theorem dataPosLegal_iff {t : List Nat} :
    dataPosLegal t = true ↔
      t.length = 16 ∧ t.Nodup ∧ (∀ x ∈ t, x ≤ 20) ∧ ∀ x ∈ t, x ∉ [0, 1, 3, 7, 15] := by
  rw [dataPosLegal_iff_perm]
  constructor
  · intro h
    have hnodup : (t ++ [0, 1, 3, 7, 15]).Nodup := h.nodup_iff.2 List.nodup_range
    refine ⟨by simpa using h.length_eq, hnodup.of_append_left, fun x hx => ?_,
      fun _ hx hslot => List.disjoint_of_nodup_append hnodup hx hslot⟩
    have hrange : x ∈ List.range 21 := h.mem_iff.1 (List.mem_append_left _ hx)
    exact Nat.le_of_lt_succ (List.mem_range.1 hrange)
  · rintro ⟨hlength, hnodup, hle, hslot⟩
    have hnodup' : (t ++ [0, 1, 3, 7, 15]).Nodup :=
      List.nodup_append'.2 ⟨hnodup, by decide, hslot⟩
    have hslots : [0, 1, 3, 7, 15] ⊆ List.range 21 := by decide
    have hsubset : t ++ [0, 1, 3, 7, 15] ⊆ List.range 21 :=
      List.append_subset.2 ⟨fun x hx => List.mem_range.2 (Nat.lt_succ_of_le (hle x hx)), hslots⟩
    exact (List.subperm_of_subset hnodup' hsubset).perm_of_length_le (by simp [hlength])

/-- Settles O3: construction accepts what the partition check accepts, which each breach R170 names fails. -/
theorem illFormedDataPosRefusedAtConstruction : Obligations.IllFormedDataPosRefusedAtConstruction := by
  intro t
  constructor
  · intro hbad
    refine dif_neg fun hlegal => ?_
    obtain ⟨hlength, hnodup, hle, hslot⟩ := dataPosLegal_iff.1 hlegal
    obtain h | h | ⟨x, hx, h⟩ | ⟨x, hx, h⟩ := hbad
    · exact h hlength
    · exact h hnodup
    · exact absurd (hle x hx) (Nat.not_le.2 h)
    · exact hslot x hx h
  · intro hlength hnodup hle hslot
    exact ⟨_, dif_pos (dataPosLegal_iff.2 ⟨hlength, hnodup, hle, hslot⟩), rfl⟩

end Sys2Proof
end

section
/-! The bench's fault and its refusals (60_exceptions.md R171, R172, 30_encoding.md R68): an operand without a value
faults where it runs, and a line outside the grammar is refused before it runs. -/

namespace Sys2Proof

theorem decodeLiteral_of_le {α : Type} {w n : Nat} (h : 2 ^ w ≤ n) (x : α) :
    decodeLiteral w n x = .error .literalOutOfRange := by
  have hrange : literalInRange w n = false := decide_eq_false (Nat.not_lt.2 h)
  simp [decodeLiteral, hrange]

theorem decodeLine_word_of_le {op : Op} {n : Nat} (h : 2 ^ op.inWidth ≤ n) :
    decodeLine ⟨op, .word n⟩ = .error .literalOutOfRange := by
  cases op <;> exact congrArg (Except.map _) (decodeLiteral_of_le h _)

theorem decodeLine_regS (op : Op) : decodeLine ⟨op, .regS⟩ = .error .operandNotInGrammar := by
  cases op <;> rfl

theorem decodeLine_undriven (op : Op) : decodeLine ⟨op, .undriven⟩ = .error .undrivenInput := by
  cases op <;> rfl

namespace Machine

theorem step_of_decodeLine_error {s : State} {l : Line} {r : Reject} (hl : s.fetch = some l)
    (hr : decodeLine l = .error r) : step s = .refused (.rejected r) := by
  rw [step, hl]
  simp only [hr]

/-- An instruction without an input word faults: its operand names an unwritten bench register (R172). -/
theorem exec_of_inputWord_none {i : Instr} {s : State} (h : inputWord i s = none) :
    exec i s = .fault .unwrittenBenchRegister := by
  cases i with
  | encode n | scatter n => cases h
  | parityFill x =>
    have hx : vecValue x s = none := Option.map_eq_none_iff.1 h
    rw [exec, execParityFill, hx, withVec]
  | check x =>
    have hx : checkValue x s = none := Option.map_eq_none_iff.1 h
    rw [exec, execCheck, hx, withVec]
  | gather x =>
    have hx : vecValue x s = none := Option.map_eq_none_iff.1 h
    rw [exec, execGather, hx, withVec]

theorem step_of_inputWord_none {s : State} {l : Line} {i : Instr} (hl : s.fetch = some l)
    (hi : decodeLine l = .ok i) (h : inputWord i s = none) : step s = .fault .unwrittenBenchRegister := by
  obtain ⟨_, hfault, _⟩ := stepRunsTheDecodedLine s l i hl hi
  exact hfault _ (exec_of_inputWord_none h)

/-- Settles O36: an unwritten register gives its instruction no input word, and the other lines do not decode. -/
theorem benchFaultsAndRefusals : Obligations.BenchFaultsAndRefusals := by
  intro s
  refine ⟨fun op hop hl hV => ?_, fun hl hC => ?_, fun op n hn hl => ?_, fun op hl => ?_⟩
  · have hword : s.regV.map BitVec.toNat = none := Option.map_eq_none_iff.2 hV
    obtain rfl | rfl | rfl := hop
    · exact step_of_inputWord_none (i := .parityFill .regV) hl rfl hword
    · exact step_of_inputWord_none (i := .check .regV) hl rfl hword
    · exact step_of_inputWord_none (i := .gather .regV) hl rfl hword
  · have hword : s.regC.map BitVec.toNat = none := Option.map_eq_none_iff.2 hC
    exact step_of_inputWord_none (i := .check .regC) hl rfl hword
  · exact step_of_decodeLine_error hl (decodeLine_word_of_le hn)
  · exact step_of_decodeLine_error hl (decodeLine_regS op)

/-- Settles O37: no operation's operand form admits an undriven input. -/
theorem undrivenInputIsRefused : Obligations.UndrivenInputIsRefused :=
  fun _ op hl => step_of_decodeLine_error hl (decodeLine_undriven op)

end Machine

end Sys2Proof
end

section
/-! The start (70_reset_and_hazards.md R181): reset holds the spec's tables and an unwritten bench, and a bench that
holds nothing, as reset and a load leave it (30_encoding.md R68), is settled. -/

namespace Sys2Proof.Machine

/-- Settles O1: reset states each of these fields, and the table of parity positions is a constant. -/
theorem resetHoldsTablesAndUnwrittenBench : Obligations.ResetHoldsTablesAndUnwrittenBench :=
  ⟨rfl, rfl, rfl, rfl, rfl⟩

/-- `Settled` asks only of a written register, so an unwritten bench meets it whatever drives the ports. -/
theorem settled_of_unwritten {s : State} (hV : s.regV = none) (hC : s.regC = none) (hS : s.regS = none) :
    s.Settled := by
  refine ⟨fun v hv => ?_, fun c hc => ?_, fun x hx => ?_⟩
  · cases hV.symm.trans hv
  · cases hC.symm.trans hc
  · cases hS.symm.trans hx

/-- Settles O43: reset leaves the bench unwritten, and so does every program that starts, which is what a load does. -/
theorem resetAndLoadAreSettled : Obligations.ResetAndLoadAreSettled := by
  obtain ⟨_, _, hV, hC, hS⟩ := resetHoldsTablesAndUnwrittenBench
  refine ⟨settled_of_unwritten hV hC hS, fun text s t hload => ?_⟩
  obtain ⟨p, _, rfl⟩ := load_next_cases hload
  exact settled_of_unwritten (s.start_regV p) (s.start_regC p) (s.start_regS p)

end Sys2Proof.Machine
end
